-- ==== Sys2Proof/Word.lean ====
section
/-! DEFINITION. The byte and the two-value byte of a boolean payload (spec 00_scope R10, 30_encoding R93). -/

namespace Sys2Proof

/-- A byte: 8 bits, bit 0 least significant (R10, R57). -/
abbrev Byte := BitVec 8

/-- A threshold magnitude operand as it stands in a packet: 16 bits, read as two's complement (R8, R87). -/
abbrev Magnitude := BitVec 16

/-- A bus address of the device handle (R6 `BUS_ADDR_WIDTH`, R22). -/
abbrev BusAddr := BitVec 7

/-- A boolean in a response payload: 0x01 for true and 0x00 for false (R93). -/
def boolByte (b : Bool) : Byte := if b then 0x01#8 else 0x00#8

end Sys2Proof
end

