-- ==== Sys2Proof/Config.lean ====
section
/-! DEFINITION. The constants the source fixes (R6) and the implementation parameters it leaves open (R7, R28 to R30). -/

namespace Sys2Proof

/-- The four bytes of the settings group, `CFG1` to `CFG4` (R25). -/
inductive CfgByte where
  | cfg1 | cfg2 | cfg3 | cfg4
  deriving DecidableEq, Repr

/-- The thirteen settings fields, in the order of the `packSettings` parameter list (R26). -/
inductive Field where
  | mode | thresholdClass | keyOutputMode | autoAdjust | powerSave | dynamicThreshold | autoResetTime
  | keyCount | keyAckTime | slide1Size | slide2Size | slide3Size | keyOffCount
  deriving DecidableEq, Repr

/-- The fields in order, field number 1 first (R26). -/
def Field.all : List Field :=
  [.mode, .thresholdClass, .keyOutputMode, .autoAdjust, .powerSave, .dynamicThreshold, .autoResetTime,
   .keyCount, .keyAckTime, .slide1Size, .slide2Size, .slide3Size, .keyOffCount]

/-- The byte each field lives in (R26). -/
def Field.home : Field → CfgByte
  | .mode | .thresholdClass | .keyOutputMode | .autoAdjust | .powerSave | .dynamicThreshold
  | .autoResetTime => .cfg1
  | .keyCount | .keyAckTime => .cfg2
  | .slide1Size | .slide2Size => .cfg3
  | .slide3Size | .keyOffCount => .cfg4

/-- One value of type `α` for each settings field, in the order of R26. -/
structure PerField (α : Type) where
  mode             : α
  thresholdClass   : α
  keyOutputMode    : α
  autoAdjust       : α
  powerSave        : α
  dynamicThreshold : α
  autoResetTime    : α
  keyCount         : α
  keyAckTime       : α
  slide1Size       : α
  slide2Size       : α
  slide3Size       : α
  keyOffCount      : α
  deriving DecidableEq, Repr

/-- The value a table gives a field. -/
def PerField.get {α : Type} (t : PerField α) : Field → α
  | .mode => t.mode
  | .thresholdClass => t.thresholdClass
  | .keyOutputMode => t.keyOutputMode
  | .autoAdjust => t.autoAdjust
  | .powerSave => t.powerSave
  | .dynamicThreshold => t.dynamicThreshold
  | .autoResetTime => t.autoResetTime
  | .keyCount => t.keyCount
  | .keyAckTime => t.keyAckTime
  | .slide1Size => t.slide1Size
  | .slide2Size => t.slide2Size
  | .slide3Size => t.slide3Size
  | .keyOffCount => t.keyOffCount

/-- The values in field order, `F[1]` first: the operand bytes of format `CFG13` (R90). -/
def PerField.toList {α : Type} (t : PerField α) : List α := Field.all.map t.get

/-- The thirteen settings of one configuration descriptor (R17, R26). -/
abbrev Settings := PerField Byte

/-- The four bytes of one settings write, `CFG1` first (R25, R58). -/
structure CfgGroup where
  cfg1 : Byte
  cfg2 : Byte
  cfg3 : Byte
  cfg4 : Byte
  deriving DecidableEq, Repr

/-- The group in wire order (R56, R58). -/
def CfgGroup.bytes (g : CfgGroup) : List Byte := [g.cfg1, g.cfg2, g.cfg3, g.cfg4]

/-- The byte of a group under its name. -/
def CfgGroup.get (g : CfgGroup) : CfgByte → Byte
  | .cfg1 => g.cfg1
  | .cfg2 => g.cfg2
  | .cfg3 => g.cfg3
  | .cfg4 => g.cfg4

/-- Where a settings field stands: its byte, its start bit and its width (R7 `CFG_FIELD`). -/
structure FieldRange where
  byte  : CfgByte
  start : Nat
  width : Nat
  deriving DecidableEq, Repr

/-- Two ranges share no bit (R28 c). -/
def FieldRange.disjoint (a b : FieldRange) : Bool :=
  a.byte != b.byte || a.start + a.width ≤ b.start || b.start + b.width ≤ a.start

/-- The implementation parameters of R7. One value of this type is one implementation; a machine never changes it.
A legal set is a list of its members (R7 `CFG_LEGAL`); the register address has no known width, so it is a number. -/
structure Params where
  cfgField        : PerField FieldRange
  cfgLegal        : PerField (List Byte)
  cfgDefault      : PerField Byte
  cfgFactory      : CfgGroup
  slideXNum9      : Byte
  slideDisable    : Byte
  regAddrSentinel : Nat
  keyBits         : Vector (Fin 8) 8
  sltBits         : Vector (Fin 3) 3
  deriving DecidableEq, Repr

/-- R28 (a), (b), R29 and R30 for one field: its byte is that of R26, its range lies in the byte, its legal
set holds only values that fit, and its default is a member (so the set is not empty). -/
def Params.fieldOk (p : Params) (f : Field) : Bool :=
  let r := p.cfgField.get f
  r.byte == f.home && 1 ≤ r.width && r.start + r.width ≤ 8
    && (p.cfgLegal.get f).all (fun v => v.toNat < 2 ^ r.width)
    && (p.cfgLegal.get f).contains (p.cfgDefault.get f)

/-- What the source fixes of the parameters: R7, R27 to R30, R36, R37. It is true of every implementation. -/
def Params.admissible (p : Params) : Bool :=
  Field.all.all p.fieldOk
    && p.cfgField.slide1Size == ⟨.cfg3, 0, 4⟩
    && p.cfgField.slide2Size == ⟨.cfg3, 4, 4⟩
    && Field.all.all (fun f => Field.all.all (fun g =>
        f == g || (p.cfgField.get f).disjoint (p.cfgField.get g)))
    && p.cfgLegal.slide1Size.contains p.slideXNum9
    && p.cfgLegal.slide2Size.contains p.slideDisable
    && p.keyBits[0] == 0
    && p.sltBits[0] == 2

namespace Config

/-- `CFG_LEN` (R6). -/
def cfgLen : Nat := 4
/-- `THR_LEN` (R6). -/
def thrLen : Nat := 3
/-- `STATUS_LEN` (R6). -/
def statusLen : Nat := 6
/-- `THR_KEY_MIN` (R6). -/
def thrKeyMin : Int := 8
/-- `THR_SLEEP_MIN` (R6). -/
def thrSleepMin : Int := 0
/-- `THR_MAX` (R6). -/
def thrMax : Int := 999
/-- `THR_BITS` (R6). -/
def thrBits : Nat := 12
/-- `THR_INDEX_BASE` (R6). -/
def thrIndexBase : Byte := 0xC0#8
/-- `THR_INDEX_SLEEP` (R6). -/
def thrIndexSleep : Byte := 0xD0#8
/-- `THR_INDEX_MAX` (R6). -/
def thrIndexMax : Nat := 9
/-- `N_KEYS` (R6). -/
def nKeys : Nat := 9
/-- `N_SLIDERS` (R6). -/
def nSliders : Nat := 3

/-- `KEY_BIT(k) = k - 1` for k = 1 to 8, as the spec decides it (R7, R36, D15; log 8). -/
def keyBitsDecided : Vector (Fin 8) 8 := #v[0, 1, 2, 3, 4, 5, 6, 7]

/-- `SLT_BIT(i) = 3 - i` for i = 1 to 3, as the spec decides it (R7, R37, D16; log 8). -/
def sltBitsDecided : Vector (Fin 3) 3 := #v[2, 1, 0]

/-- Some value of a type that has one; nothing says which. Every open parameter comes from here (log 6). -/
opaque anyOf (α : Type) [Inhabited α] : α

/-- What `DEV_ADDR` would read as while it has no value. No run from reset reads it (R47; log 5). -/
opaque devAddrUnspecified : BusAddr

/-- One admissible value, which shows that R7 and R28 to R30 can be met: the fields of `CFG1`, `CFG2` and `CFG4`
one bit wide, every legal set the single value 0. It is no value of any parameter: `openParams` needs a type that
has a value, and is not equal to this one by any rule of Lean. -/
def admissibleWitness : { p : Params // p.admissible = true } :=
  ⟨{ cfgField :=
        { mode := ⟨.cfg1, 0, 1⟩, thresholdClass := ⟨.cfg1, 1, 1⟩, keyOutputMode := ⟨.cfg1, 2, 1⟩,
          autoAdjust := ⟨.cfg1, 3, 1⟩, powerSave := ⟨.cfg1, 4, 1⟩, dynamicThreshold := ⟨.cfg1, 5, 1⟩,
          autoResetTime := ⟨.cfg1, 6, 1⟩, keyCount := ⟨.cfg2, 0, 1⟩, keyAckTime := ⟨.cfg2, 1, 1⟩,
          slide1Size := ⟨.cfg3, 0, 4⟩, slide2Size := ⟨.cfg3, 4, 4⟩, slide3Size := ⟨.cfg4, 0, 1⟩,
          keyOffCount := ⟨.cfg4, 1, 1⟩ },
      cfgLegal := ⟨[0], [0], [0], [0], [0], [0], [0], [0], [0], [0], [0], [0], [0]⟩,
      cfgDefault := ⟨0, 0, 0, 0, 0, 0, 0, 0, 0, 0, 0, 0, 0⟩,
      cfgFactory := ⟨0, 0, 0, 0⟩, slideXNum9 := 0, slideDisable := 0, regAddrSentinel := 0,
      keyBits := keyBitsDecided, sltBits := sltBitsDecided }, by decide⟩

/-- The open parameters of this implementation: admissible, and otherwise unknown (R7 `OPEN`, D18; log 6). -/
def openParams : { p : Params // p.admissible = true } :=
  @anyOf { p : Params // p.admissible = true } ⟨admissibleWitness⟩

/-- The parameters of this implementation: the open ones unknown, the two bit maps as the spec decides (R7). -/
def params : Params :=
  { openParams.val with keyBits := keyBitsDecided, sltBits := sltBitsDecided }

end Config

end Sys2Proof
end

