-- ==== Sys2Proof/Syntax.lean ====
section
/-! DEFINITION. The fifteen commands of VKC-1 as syntax (R95), one constructor per row of the opcode table, and the
pseudo-instructions of R104. -/

namespace Sys2Proof

/-- The status block: six bytes, `ST0` to `ST5` (R35, R150). -/
structure Snapshot where
  st0 : Byte
  st1 : Byte
  st2 : Byte
  st3 : Byte
  st4 : Byte
  st5 : Byte
  deriving DecidableEq, Repr

/-- The snapshot in wire order, `ST0` first (R56, R58). -/
def Snapshot.bytes (st : Snapshot) : List Byte := [st.st0, st.st1, st.st2, st.st3, st.st4, st.st5]

/-- The opcodes of VKC-1 (R95). -/
inductive Opcode where
  | init | extract | encThrKey | encThrSlp | decThr | packCfg
  | decCorr | decWrf | decSlt | decKey | decPos
  | wrCfg | wrThrKey | wrThrSlp | rdStatus
  deriving DecidableEq, Repr

/-- A command with its operands as the packet carries them. An operand outside its legal range is still a
command (R94, R99): `Instr.wellFormed` tells the two apart and the meaning answers `PreconditionViolated`. -/
inductive Instr where
  /-- `INIT A, TR, TW` with the two reserved fields of format `I` (R83, R165). -/
  | init (rsv1 : BitVec 1) (a : BusAddr) (rsv2 : BitVec 6) (tw tr : Bool)
  /-- `EXTRACT B, S, N` (R84, R112). -/
  | extract (b s n : Byte)
  /-- `ENC_THR_KEY K, V` (R85, R124). -/
  | encThrKey (k : Byte) (v : Magnitude)
  /-- `ENC_THR_SLP V` (R86, R125). -/
  | encThrSlp (v : Magnitude)
  /-- `DEC_THR IB, B1, B2`, with `B2` as its two nibbles (R89, R126). -/
  | decThr (ib b1 : Byte) (b2h b2l : BitVec 4)
  /-- `PACK_CFG F1, ..., F13` (R90, R137). -/
  | packCfg (f : Settings)
  /-- `DEC_CORR [ST0..ST5]` (R91, R151). -/
  | decCorr (st : Snapshot)
  /-- `DEC_WRF [ST0..ST5]` (R91, R152). -/
  | decWrf (st : Snapshot)
  /-- `DEC_SLT [ST0..ST5], IX` (R92, R153). -/
  | decSlt (st : Snapshot) (ix : Byte)
  /-- `DEC_KEY [ST0..ST5], IX` (R92, R154). -/
  | decKey (st : Snapshot) (ix : Byte)
  /-- `DEC_POS [ST0..ST5], IX` (R92, R155). -/
  | decPos (st : Snapshot) (ix : Byte)
  /-- `WR_CFG F1, ..., F13` (R90, R166). -/
  | wrCfg (f : Settings)
  /-- `WR_THR_KEY K, V` (R85, R167). -/
  | wrThrKey (k : Byte) (v : Magnitude)
  /-- `WR_THR_SLP V` (R86, R168). -/
  | wrThrSlp (v : Magnitude)
  /-- `RD_STATUS` (R82, R169). -/
  | rdStatus
  deriving DecidableEq, Repr

/-- The opcode of a command. -/
def Instr.opcode : Instr → Opcode
  | .init _ _ _ _ _ => .init
  | .extract _ _ _ => .extract
  | .encThrKey _ _ => .encThrKey
  | .encThrSlp _ => .encThrSlp
  | .decThr _ _ _ _ => .decThr
  | .packCfg _ => .packCfg
  | .decCorr _ => .decCorr
  | .decWrf _ => .decWrf
  | .decSlt _ _ => .decSlt
  | .decKey _ _ => .decKey
  | .decPos _ _ => .decPos
  | .wrCfg _ => .wrCfg
  | .wrThrKey _ _ => .wrThrKey
  | .wrThrSlp _ => .wrThrSlp
  | .rdStatus => .rdStatus

/-- The transaction commands: those that make one transport request (R17, R55). -/
def Instr.isTransaction : Instr → Bool
  | .wrCfg _ | .wrThrKey _ _ | .wrThrSlp _ | .rdStatus => true
  | .init _ _ _ _ _ | .extract _ _ _ | .encThrKey _ _ | .encThrSlp _ | .decThr _ _ _ _ | .packCfg _
  | .decCorr _ | .decWrf _ | .decSlt _ _ | .decKey _ _ | .decPos _ _ => false

/-- The pure commands: no transport request, block state neither read nor written (R17, R171). -/
def Instr.isPure : Instr → Bool
  | .extract _ _ _ | .encThrKey _ _ | .encThrSlp _ | .decThr _ _ _ _ | .packCfg _
  | .decCorr _ | .decWrf _ | .decSlt _ _ | .decKey _ _ | .decPos _ _ => true
  | .init _ _ _ _ _ | .wrCfg _ | .wrThrKey _ _ | .wrThrSlp _ | .rdStatus => false

/-- The pseudo-instructions of R104. -/
inductive Pseudo where
  /-- `ENC_THR V, sleep=1`. -/
  | encThrSleep (v : Magnitude)
  /-- `ENC_THR V, sleep=0, key=K`. -/
  | encThrKeyed (v : Magnitude) (k : Byte)
  /-- `WR_THR V, sleep=1`. -/
  | wrThrSleep (v : Magnitude)
  /-- `WR_THR V, sleep=0, key=K`. -/
  | wrThrKeyed (v : Magnitude) (k : Byte)
  /-- `PACK_DEFAULT`. -/
  | packDefault
  /-- `WR_DEFAULT`. -/
  | wrDefault
  deriving DecidableEq, Repr

end Sys2Proof
end

