-- ==== Sys2Proof/Decode.lean ====
section
/-! DEFINITION. The opcode map (R95), the decoder from command packets (R80 to R101), the encoder, the host's view of
a table word, the pseudo-instructions (R104) and the text form (R102). -/

namespace Sys2Proof

/-- The opcodes in the order of the map (R95). -/
def Opcode.all : List Opcode :=
  [.init, .extract, .encThrKey, .encThrSlp, .decThr, .packCfg, .decCorr, .decWrf, .decSlt, .decKey, .decPos,
   .wrCfg, .wrThrKey, .wrThrSlp, .rdStatus]

/-- Byte 0 of the packet, column `op` of R95. -/
def Opcode.code : Opcode → Byte
  | .init => 0x01
  | .extract => 0x10
  | .encThrKey => 0x20
  | .encThrSlp => 0x21
  | .decThr => 0x22
  | .packCfg => 0x30
  | .decCorr => 0x40
  | .decWrf => 0x41
  | .decSlt => 0x42
  | .decKey => 0x43
  | .decPos => 0x44
  | .wrCfg => 0x50
  | .wrThrKey => 0x51
  | .wrThrSlp => 0x52
  | .rdStatus => 0x53

/-- The number of operand bytes, column `N` of R95. -/
def Opcode.operandCount : Opcode → Nat
  | .init => 2
  | .extract => 3
  | .encThrKey => 3
  | .encThrSlp => 2
  | .decThr => 3
  | .packCfg => 13
  | .decCorr => 6
  | .decWrf => 6
  | .decSlt => 7
  | .decKey => 7
  | .decPos => 7
  | .wrCfg => 13
  | .wrThrKey => 3
  | .wrThrSlp => 2
  | .rdStatus => 0

/-- The packet length of an opcode, `1 + N(op)` (R80, R101). -/
def Opcode.packetLength (c : Opcode) : Nat := 1 + c.operandCount

/-- The number of payload bytes of an `OK` response (R96). -/
def Opcode.okPayloadLength : Opcode → Nat
  | .init => 0
  | .extract => 1
  | .encThrKey => 3
  | .encThrSlp => 3
  | .decThr => 3
  | .packCfg => 4
  | .decCorr => 1
  | .decWrf => 1
  | .decSlt => 1
  | .decKey => 1
  | .decPos => 1
  | .wrCfg => 0
  | .wrThrKey => 0
  | .wrThrSlp => 0
  | .rdStatus => 6

/-- The mnemonic of R95. -/
def Opcode.mnemonic : Opcode → String
  | .init => "INIT"
  | .extract => "EXTRACT"
  | .encThrKey => "ENC_THR_KEY"
  | .encThrSlp => "ENC_THR_SLP"
  | .decThr => "DEC_THR"
  | .packCfg => "PACK_CFG"
  | .decCorr => "DEC_CORR"
  | .decWrf => "DEC_WRF"
  | .decSlt => "DEC_SLT"
  | .decKey => "DEC_KEY"
  | .decPos => "DEC_POS"
  | .wrCfg => "WR_CFG"
  | .wrThrKey => "WR_THR_KEY"
  | .wrThrSlp => "WR_THR_SLP"
  | .rdStatus => "RD_STATUS"

/-- The opcode a byte stands for, matched on all 8 bits (R95), or none (R97). -/
def Opcode.ofByte (b : Byte) : Option Opcode := Opcode.all.find? fun c => c.code == b

/-- Why a packet is no command. Each is answered with `IllegalCommand` (R190). -/
inductive DecodeError where
  /-- The packet has no byte (R98). -/
  | emptyPacket
  /-- Byte 0 is none of the fifteen opcodes (R97). -/
  | unknownOpcode (op : Byte)
  /-- The packet's length is not that of its opcode (R98). -/
  | wrongLength (c : Opcode)
  deriving DecidableEq, Repr

/-- Format `I` (R83). -/
def decodeI : List Byte → Option Instr
  | [b1, b2] =>
    some (.init (b1.extractLsb' 7 1) (b1.extractLsb' 0 7) (b2.extractLsb' 2 6) (b2.getLsbD 1) (b2.getLsbD 0))
  | _ => none

/-- Format `X` (R84). -/
def decodeX : List Byte → Option Instr
  | [b, s, n] => some (.extract b s n)
  | _ => none

/-- Format `KV`: index, then the magnitude low byte first (R85, R87). -/
def decodeKV (mk : Byte → Magnitude → Instr) : List Byte → Option Instr
  | [k, vl, vh] => some (mk k (vh ++ vl))
  | _ => none

/-- Format `V`: the magnitude low byte first (R86, R87). -/
def decodeV (mk : Magnitude → Instr) : List Byte → Option Instr
  | [vl, vh] => some (mk (vh ++ vl))
  | _ => none

/-- Format `T3` (R89). -/
def decodeT3 : List Byte → Option Instr
  | [ib, b1, b2] => some (.decThr ib b1 (b2.extractLsb' 4 4) (b2.extractLsb' 0 4))
  | _ => none

/-- Format `CFG13` (R90). -/
def decodeCfg13 (mk : Settings → Instr) : List Byte → Option Instr
  | [f1, f2, f3, f4, f5, f6, f7, f8, f9, f10, f11, f12, f13] =>
    some (mk ⟨f1, f2, f3, f4, f5, f6, f7, f8, f9, f10, f11, f12, f13⟩)
  | _ => none

/-- Format `S6` (R91). -/
def decodeS6 (mk : Snapshot → Instr) : List Byte → Option Instr
  | [b0, b1, b2, b3, b4, b5] => some (mk ⟨b0, b1, b2, b3, b4, b5⟩)
  | _ => none

/-- Format `S6I` (R92). -/
def decodeS6I (mk : Snapshot → Byte → Instr) : List Byte → Option Instr
  | [b0, b1, b2, b3, b4, b5, ix] => some (mk ⟨b0, b1, b2, b3, b4, b5⟩ ix)
  | _ => none

/-- Format `Z` (R82). -/
def decodeZ (i : Instr) : List Byte → Option Instr
  | [] => some i
  | _ => none

/-- The command of an opcode with the given operand bytes, none when their number is not `N(op)` (R95). -/
def decodeOperands (c : Opcode) (operands : List Byte) : Option Instr :=
  match c with
  | .init => decodeI operands
  | .extract => decodeX operands
  | .encThrKey => decodeKV .encThrKey operands
  | .encThrSlp => decodeV .encThrSlp operands
  | .decThr => decodeT3 operands
  | .packCfg => decodeCfg13 .packCfg operands
  | .decCorr => decodeS6 .decCorr operands
  | .decWrf => decodeS6 .decWrf operands
  | .decSlt => decodeS6I .decSlt operands
  | .decKey => decodeS6I .decKey operands
  | .decPos => decodeS6I .decPos operands
  | .wrCfg => decodeCfg13 .wrCfg operands
  | .wrThrKey => decodeKV .wrThrKey operands
  | .wrThrSlp => decodeV .wrThrSlp operands
  | .rdStatus => decodeZ .rdStatus operands

/-- The decoder, total on any packet: one of the fifteen commands with its operands, or illegal (R97, R98, R101). -/
def decode : List Byte → Except DecodeError Instr
  | [] => .error .emptyPacket
  | op :: operands =>
    match Opcode.ofByte op with
    | none => .error (.unknownOpcode op)
    | some c =>
      match decodeOperands c operands with
      | none => .error (.wrongLength c)
      | some i => .ok i

/-- A magnitude as it travels: `VL`, then `VH` (R87). -/
def magnitudeBytes (v : Magnitude) : List Byte := [v.extractLsb' 0 8, v.extractLsb' 8 8]

/-- The operand bytes of a command, from the packet formats R82 to R92. -/
def Instr.operandBytes : Instr → List Byte
  | .init rsv1 a rsv2 tw tr => [rsv1 ++ a, rsv2 ++ BitVec.ofBool tw ++ BitVec.ofBool tr]
  | .extract b s n => [b, s, n]
  | .encThrKey k v => k :: magnitudeBytes v
  | .encThrSlp v => magnitudeBytes v
  | .decThr ib b1 b2h b2l => [ib, b1, b2h ++ b2l]
  | .packCfg f => f.toList
  | .decCorr st => st.bytes
  | .decWrf st => st.bytes
  | .decSlt st ix => st.bytes ++ [ix]
  | .decKey st ix => st.bytes ++ [ix]
  | .decPos st ix => st.bytes ++ [ix]
  | .wrCfg f => f.toList
  | .wrThrKey k v => k :: magnitudeBytes v
  | .wrThrSlp v => magnitudeBytes v
  | .rdStatus => []

/-- The packet of a command: its opcode, then its operand bytes (R80). -/
def encode (i : Instr) : List Byte := i.opcode.code :: i.operandBytes

/-- A numbered table word as the packet it stands for: byte `i` is bits `8 i + 7` to `8 i`, the first byte at the
lowest position; bits from `nbits` on are 0. The packet is as long as its opcode asks, or as long as the word when
that is longer, or as long as the word when byte 0 is no opcode (log 16). -/
def tablePacket (nbits w : Nat) : List Byte :=
  let byteAt (i : Nat) : Byte := if 8 * i < nbits then BitVec.ofNat 8 (w >>> (8 * i)) else 0#8
  let given := (nbits + 7) / 8
  let len := match Opcode.ofByte (byteAt 0) with
    | some c => max c.packetLength given
    | none => given
  (List.range len).map byteAt

/-- The command the decoder reads from a table word. -/
def decodeTableWord (nbits w : Nat) : Option Instr :=
  match decode (tablePacket nbits w) with
  | .ok i => some i
  | .error _ => none

/-- The one command a pseudo-instruction stands for (R104). -/
def Pseudo.expand (p : Params) : Pseudo → Instr
  | .encThrSleep v => .encThrSlp v
  | .encThrKeyed v k => .encThrKey k v
  | .wrThrSleep v => .wrThrSlp v
  | .wrThrKeyed v k => .wrThrKey k v
  | .packDefault => .packCfg p.cfgDefault
  | .wrDefault => .wrCfg p.cfgDefault

/-- An unsigned operand byte as decimal text (R102). -/
def byteText {w : Nat} (b : BitVec w) : String := toString b.toNat

/-- Operands separated by a comma and a blank (R102). -/
def commaText (parts : List String) : String := ", ".intercalate parts

/-- A snapshot as a bracketed list of six bytes (R102). -/
def Snapshot.text (st : Snapshot) : String := "[" ++ commaText (st.bytes.map byteText) ++ "]"

/-- The operands of a command as text, in the order of R102. The reserved fields of `INIT` have no text form. -/
def Instr.operandText : Instr → List String
  | .init _ a _ tw tr => [byteText a, byteText (BitVec.ofBool tr), byteText (BitVec.ofBool tw)]
  | .extract b s n => [byteText b, byteText s, byteText n]
  | .encThrKey k v => [byteText k, toString v.toInt]
  | .encThrSlp v => [toString v.toInt]
  | .decThr ib b1 b2h b2l => [byteText ib, byteText b1, byteText (b2h ++ b2l)]
  | .packCfg f => f.toList.map byteText
  | .decCorr st => [st.text]
  | .decWrf st => [st.text]
  | .decSlt st ix => [st.text, byteText ix]
  | .decKey st ix => [st.text, byteText ix]
  | .decPos st ix => [st.text, byteText ix]
  | .wrCfg f => f.toList.map byteText
  | .wrThrKey k v => [byteText k, toString v.toInt]
  | .wrThrSlp v => [toString v.toInt]
  | .rdStatus => []

/-- The text form `MNEMONIC operand, operand, ...` of a command (R102). -/
def Instr.text (i : Instr) : String :=
  " ".intercalate (i.opcode.mnemonic :: (match i.operandText with | [] => [] | ops => [commaText ops]))

end Sys2Proof
end

