-- ==== Sys2Proof/Machine/Operands.lean ====
section
/-! DEFINITION. Every operand form of the commands and the pure functions on operands: bit fields (40_bitfield),
thresholds (41_threshold), the settings group (42_config_pack), and the legal ranges (R189). -/

namespace Sys2Proof.Machine

/-- `Extract(b, s, n) = (b >> s) & ((1 << n) - 1)` (R110). It is defined on the stated ranges only: a caller
proves them. -/
def extractField (b : Byte) (s n : Nat) (_ : s ≤ 7) (_ : n ≤ 8 - s) : Byte :=
  BitVec.ofNat 8 ((b.toNat >>> s) &&& ((1 <<< n) - 1))

/-- `Place(v, s) = v << s`, as a byte (R111). In admissible parameters the shifted value fits (R111; log 6). -/
def placeField (v : Byte) (s : Nat) : Byte := v <<< s

/-- `S` and `N` of `EXTRACT` are in range: `S` in 0..7 and `N` in 0..8 - S (R84, R112, D24). -/
def extractLegal (s n : Byte) : Bool := s.toNat ≤ 7 && n.toNat ≤ 8 - s.toNat

/-- `ClampThr(v, sleep)` (R120): [0, 999] for the sleep entry, [8, 999] for a per-key entry. -/
def clampThr (v : Int) (sleep : Bool) : Int :=
  min (max v (if sleep then Config.thrSleepMin else Config.thrKeyMin)) Config.thrMax

/-- The clamped magnitude as "an unsigned 12-bit binary quantity" (R121): the one narrowing, after the clamp (R127). -/
def clampedMagnitude (v : Magnitude) (sleep : Bool) : BitVec 12 :=
  BitVec.ofInt 12 (clampThr v.toInt sleep)

/-- `ThrData(c) = (B1, B2)`: mid and low nibble in `B1`, high nibble over zeros in `B2` (R121). -/
def thrData (c : BitVec 12) : Byte × Byte :=
  (c.extractLsb' 4 4 ++ c.extractLsb' 0 4, c.extractLsb' 8 4 ++ 0#4)

/-- `ThrIndex(K) = 0xC0 + K` (R122). -/
def thrIndex (k : Byte) : Byte := Config.thrIndexBase + k

/-- The three bytes of a per-key threshold entry: index byte, `B1`, `B2` (R33, R124). -/
def thrKeyEntry (k : Byte) (v : Magnitude) : List Byte :=
  let d := thrData (clampedMagnitude v false)
  [thrIndex k, d.1, d.2]

/-- The three bytes of the sleep threshold entry (R33, R125). -/
def thrSleepEntry (v : Magnitude) : List Byte :=
  let d := thrData (clampedMagnitude v true)
  [Config.thrIndexSleep, d.1, d.2]

/-- `ThrValue(B1, B2) = B1 | ((B2 >> 4) << 8)` (R123), as the unsigned 16-bit number of R126. -/
def thrValue (b1 b2 : Byte) : BitVec 16 :=
  b1.zeroExtend 16 ||| ((b2 >>> 4).zeroExtend 16 <<< 8)

/-- The target index of an index byte: 0x00 to 0x09 for a per-key entry, 0xD0 for the sleep entry (R126). -/
def thrTarget (ib : Byte) : Byte :=
  if ib = Config.thrIndexSleep then Config.thrIndexSleep else ib - Config.thrIndexBase

/-- A per-key target index is 0 to 9 (R85, R124). -/
def keyTargetLegal (k : Byte) : Bool := k.toNat ≤ Config.thrIndexMax

/-- An index byte the encoder produces: 0xC0 to 0xC9 or 0xD0 (R89, R126). -/
def indexByteLegal (ib : Byte) : Bool :=
  (0xC0#8 ≤ ib && ib ≤ 0xC9#8) || ib = Config.thrIndexSleep

/-- The operands of `DEC_THR` are bytes an encoder produces: the index byte legal, the low nibble of `B2` zero
(R126, D23). -/
def decThrLegal (ib : Byte) (b2l : BitVec 4) : Bool := indexByteLegal ib && b2l == 0#4

/-- `ValidCfg(F)`: every setting is a member of its enumeration (R136). -/
def validCfg (p : Params) (f : Settings) : Bool :=
  Field.all.all fun i => (p.cfgLegal.get i).contains (f.get i)

/-- One byte of the settings group: the OR of the placed fields whose byte it is, the empty OR being 0 (R135). -/
def packByte (p : Params) (f : Settings) (j : CfgByte) : Byte :=
  Field.all.foldl
    (fun acc i =>
      if (p.cfgField.get i).byte = j then acc ||| placeField (f.get i) (p.cfgField.get i).start else acc)
    0#8

/-- `PackCfg(F) = [CFG1, CFG2, CFG3, CFG4]` (R135). -/
def packCfg (p : Params) (f : Settings) : CfgGroup :=
  ⟨packByte p f .cfg1, packByte p f .cfg2, packByte p f .cfg3, packByte p f .cfg4⟩

/-- The slider an index operand names: 1 to 3, and no other (R92, R153, R155). Slider 1 is position 0. -/
def sliderOf (ix : Byte) : Option (Fin 3) :=
  if h : 1 ≤ ix.toNat ∧ ix.toNat ≤ 3 then some ⟨ix.toNat - 1, by omega⟩ else none

/-- The key an index operand names: 1 to 9, and no other (R92, R154). Key 1 is position 0, key 9 position 8. -/
def keyOf (ix : Byte) : Option (Fin 9) :=
  if h : 1 ≤ ix.toNat ∧ ix.toNat ≤ 9 then some ⟨ix.toNat - 1, by omega⟩ else none

/-- The reserved bits of format `I` are 0 (R83, R99). -/
def initLegal (rsv1 : BitVec 1) (rsv2 : BitVec 6) : Bool := rsv1 == 0#1 && rsv2 == 0#6

/-- R140, `PackCfg(CFG_DEFAULT) = CFG_FACTORY`: the property that ties two open parameters. It is not part of
`Params.admissible`; a claim that needs it names it. -/
def factoryDefault (p : Params) : Prop := packCfg p p.cfgDefault = p.cfgFactory

end Sys2Proof.Machine
end

