-- ==== Sys2Proof/Machine/State.lean ====
section
/-! DEFINITION. The state of the block and of its ports (R20 to R24, R46 to R49, R54, R70, R80, R81, R215), the reasons
a step can stop, and the state after reset. -/

namespace Sys2Proof.Machine

/-- `HSTATE` (R22, R23). The numeric pattern 3 is never produced, so it has no constructor. -/
inductive HState where
  /-- No `INIT` has been accepted since reset. -/
  | uninit
  /-- An `INIT` supplied both capabilities: transaction commands may reach the chip. -/
  | ready
  /-- An `INIT` supplied a null capability. -/
  | failed
  deriving DecidableEq, Repr

/-- The 2-bit code of `HSTATE` (R22), which no command reads. -/
def HState.code : HState → BitVec 2
  | .uninit => 0#2
  | .ready => 1#2
  | .failed => 2#2

/-- The status codes of a response (R185). -/
inductive Status where
  | ok | invalidTransport | transportFailure | preconditionViolated | illegalCommand | noHandle
  deriving DecidableEq, Repr

/-- A transport request `TREQ = (kind, dev, reg, n, data)` (R54): `MemWrite` (R52) or `MemRead` (R53). -/
inductive TReq where
  | wr (dev : BusAddr) (reg : Nat) (n : Nat) (data : List Byte)
  | rd (dev : BusAddr) (reg : Nat) (n : Nat)
  deriving DecidableEq, Repr

/-- A transport answer `TANS = (ok, data)` (R54). `data` is what the buffer holds: it counts only for a read with
`ok` true, which always brings six bytes (R53, D14; log 12). -/
structure TAns where
  ok   : Bool
  data : Snapshot
  deriving DecidableEq, Repr

/-- One transport event (R70), with the register address the request carried. -/
inductive Ev where
  | write (dev : BusAddr) (reg : Nat) (n : Nat) (bytes : List Byte) (ok : Bool)
  | read (dev : BusAddr) (reg : Nat) (n : Nat) (ok : Bool) (bytes : List Byte)
  deriving DecidableEq, Repr

/-- What the host presents: a command packet (R80) or the reset input `RST` (R215). -/
inductive HostInput where
  | command (packet : List Byte)
  | rst
  deriving DecidableEq, Repr

/-- The state. `hstate` and `devAddr` are the block's two pieces of state (R22); `pending` is the request a command
waits on (R71, R230); the next four are the ports of the step (R19), the model's own (log 1, log 3); `params` is the
configuration (R7), which no step changes (log 6). -/
structure State where
  /-- `HSTATE`. -/
  hstate     : HState
  /-- `DEV_ADDR`; `none` is the spec's "no value" (R47; log 5). -/
  devAddr    : Option BusAddr
  /-- The transport request that has not been answered yet (log 4). -/
  pending    : Option TReq
  /-- What the host presents, next first. -/
  hostInputs : List HostInput
  /-- What the environment answers, next first. -/
  answers    : List TAns
  /-- The response packets sent, oldest first. -/
  responses  : List (List Byte)
  /-- The transport events, oldest first; the block never reads them (R70). -/
  events     : List Ev
  /-- The implementation parameters. -/
  params     : Params
  deriving DecidableEq, Repr

/-- Nothing faults: "There are no exceptions; all failures are conveyed through return values" (R15, R185, R196). The
type has no constructor, so a step that ends in a fault does not exist (log 13). -/
inductive Fault where
  deriving DecidableEq, Repr

/-- Reasons a step has no meaning. -/
inductive Refusal where
  /-- Raised only by an arm of `exec` whose command has no meaning yet; no arm raises it. Safe: the machine stops. -/
  | notModelled (mnemonic : String)
  deriving DecidableEq, Repr

/-- The machine after reset (R46, R47, R49): `HSTATE` is `UNINIT`, `DEV_ADDR` has no value, nothing is outstanding,
nothing has been presented, answered, sent or recorded (DESIGN CHOICE for the ports, log 1 and log 3). -/
def State.reset : State where
  hstate     := .uninit
  devAddr    := none
  pending    := none
  hostInputs := []
  answers    := []
  responses  := []
  events     := []
  params     := Config.params

end Sys2Proof.Machine
end

