-- ==== Sys2Proof/Machine/Ops.lean ====
section
/-! DEFINITION. The named operations on the state: the handle, the response port, the one way an error ends a
command (R15, R196), the transport (R52 to R55), reset (R216). -/

namespace Sys2Proof.Machine

/-- The code of a status (R185). -/
def Status.code : Status → Byte
  | .ok => 0x00
  | .invalidTransport => 0x01
  | .transportFailure => 0x02
  | .preconditionViolated => 0x03
  | .illegalCommand => 0x04
  | .noHandle => 0x05

namespace State

/-- Write `HSTATE`. -/
def setHState (h : HState) (s : State) : State := { s with hstate := h }

/-- Write `DEV_ADDR`, or leave it without a value. -/
def setDevAddr (a : Option BusAddr) (s : State) : State := { s with devAddr := a }

/-- Set or clear the outstanding transport request. -/
def setPending (r : Option TReq) (s : State) : State := { s with pending := r }

/-- What is left of the host's inputs. -/
def setHostInputs (l : List HostInput) (s : State) : State := { s with hostInputs := l }

/-- What is left of the environment's answers. -/
def setAnswers (l : List TAns) (s : State) : State := { s with answers := l }

/-- Send one response packet (R81). -/
def send (packet : List Byte) (s : State) : State := { s with responses := s.responses ++ [packet] }

/-- Record one transport event (R70). -/
def record (e : Ev) (s : State) : State := { s with events := s.events ++ [e] }

/-- `respond OK(payload)`: the packet `[0x00] ++ payload` (R13). -/
def respondOk (payload : List Byte) (s : State) : State := s.send (Status.ok.code :: payload)

/-- `raise <Status>`: the command ends, the response is the single status byte, nothing else changes (R15, R196). It
stands in the place of taking an exception; there is no handler to return from (R198). -/
def raise (e : Status) (s : State) : State := s.send [e.code]

/-- The bus address a request carries: `DEV_ADDR`. Its value where it has none is free (R47; log 5). -/
def busAddr (s : State) : BusAddr := s.devAddr.getD Config.devAddrUnspecified

/-- The rest of a transaction command once the transport has answered: the event is recorded (R70), a failure is
passed on, a success answers `OK` with the bytes read (R166 to R169, R187). On a failed read the data are dropped
unread (R53). -/
def complete (req : TReq) (ans : TAns) (s : State) : State :=
  match req with
  | .wr dev reg n data =>
    let s' := s.record (.write dev reg n data ans.ok)
    if ans.ok then s'.respondOk [] else s'.raise .transportFailure
  | .rd dev reg n =>
    let bytes := if ans.ok then ans.data.bytes else []
    let s' := s.record (.read dev reg n ans.ok bytes)
    if ans.ok then s'.respondOk bytes else s'.raise .transportFailure

/-- The outstanding request meets the environment's next answer. With no request or no answer nothing happens: a
transport that does not answer leaves the block waiting (R71, R230; log 4). -/
def settle (s : State) : State :=
  match s.pending, s.answers with
  | some req, ans :: rest => ((s.setPending none).setAnswers rest).complete req ans
  | some _, [] => s
  | none, _ => s

/-- Make one transport request; request and answer are one exchange inside the step when the environment answers
(R54, R55). -/
def transact (req : TReq) (s : State) : State := (s.setPending (some req)).settle

/-- `MemWrite((DEV_ADDR, REG_ADDR_SENTINEL), n, bytes)` and what follows its answer (R51, R52). -/
def memWrite (n : Nat) (bytes : List Byte) (s : State) : State :=
  s.transact (.wr s.busAddr s.params.regAddrSentinel n bytes)

/-- `MemRead((DEV_ADDR, REG_ADDR_SENTINEL), n)` and what follows its answer (R51, R53). -/
def memRead (n : Nat) (s : State) : State :=
  s.transact (.rd s.busAddr s.params.regAddrSentinel n)

/-- The handle check of every transaction command (R170): what follows happens only while `HSTATE` is `READY`. -/
def withHandle (k : State → State) (s : State) : State :=
  if s.hstate = .ready then k s else s.raise .noHandle

/-- The effect of reset (R216): the handle is gone; no response, no request, the chip untouched. -/
def takeReset (s : State) : State := (s.setHState .uninit).setDevAddr none

/-- The answer to a packet that is no command (R97, R98, R190). -/
def answerIllegal (s : State) : State := s.raise .illegalCommand

end State

end Sys2Proof.Machine
end

