-- ==== Sys2Proof/Machine/BitField.lean ====
section
/-! DEFINITION. The bit-field codec: EXTRACT (40_bitfield). -/

namespace Sys2Proof.Machine

/-- `EXTRACT B, S, N` (R112). -/
def execExtract (b sb n : Byte) (s : State) : Host.Outcome State Fault Refusal :=
  .next (if h : sb.toNat ≤ 7 ∧ n.toNat ≤ 8 - sb.toNat then
    s.respondOk [extractField b sb.toNat n.toNat h.1 h.2]
  else s.raise .preconditionViolated)

end Sys2Proof.Machine
end

