-- ==== Sys2Proof/Machine/ConfigPack.lean ====
section
/-! DEFINITION. The configuration packer: PACK_CFG (42_config_pack). -/

namespace Sys2Proof.Machine

/-- `PACK_CFG F1, ..., F13` (R137): a value that is no member is refused, never masked (R136); nothing is
cross-validated (R138). -/
def execPackCfg (f : Settings) (s : State) : Host.Outcome State Fault Refusal :=
  .next (if validCfg s.params f then s.respondOk (packCfg s.params f).bytes
  else s.raise .preconditionViolated)

end Sys2Proof.Machine
end

