-- ==== Sys2Proof/Machine/Flags.lean ====
section
/-! DEFINITION. The fields of the status block (R35 to R39, R151 to R155). The block itself has no flags (R24); these
are the flag computations the spec gives: each accessor is an application of `Extract` (R156). -/

namespace Sys2Proof.Machine

/-- `correctionFlag()`: bit 7 of `ST0`, unchanged (R151). -/
def correctionFlag (st : Snapshot) : Byte := extractField st.st0 7 1 (by decide) (by decide)

/-- `writeFlag()`: bit 6 of `ST0` (R152). -/
def writeFlag (st : Snapshot) : Byte := extractField st.st0 6 1 (by decide) (by decide)

/-- `sliderTouched(i)`: bit `SLT_BIT(i)` of `ST0` (R153). -/
def sliderTouched (p : Params) (st : Snapshot) (i : Fin 3) : Byte :=
  extractField st.st0 (p.sltBits[i]).val 1 (by omega) (by omega)

/-- `keyPressed(k)`: bit `KEY_BIT(k)` of `ST1` for keys 1 to 8, bit 0 of `ST2` for key 9 (R154). -/
def keyPressed (p : Params) (st : Snapshot) (k : Fin 9) : Byte :=
  if h : k.val < 8 then extractField st.st1 (p.keyBits[k.val]).val 1 (by omega) (by omega)
  else extractField st.st2 0 1 (by decide) (by decide)

/-- `sliderPosition(i)`: the whole byte `ST3`, `ST4` or `ST5` (R155). -/
def sliderPosition (st : Snapshot) (i : Fin 3) : Byte :=
  match i with
  | 0 => extractField st.st3 0 8 (by decide) (by decide)
  | 1 => extractField st.st4 0 8 (by decide) (by decide)
  | 2 => extractField st.st5 0 8 (by decide) (by decide)

end Sys2Proof.Machine
end

