-- ==== Sys2Proof/Machine/StatusDecode.lean ====
section
/-! DEFINITION. The status decoder: DEC_CORR, DEC_WRF, DEC_SLT, DEC_KEY, DEC_POS (43_status_decode). None of them
consults the correction flag before it answers (R156). -/

namespace Sys2Proof.Machine

/-- `DEC_CORR [ST0..ST5]` (R151). -/
def execDecCorr (st : Snapshot) (s : State) : Host.Outcome State Fault Refusal :=
  .next (s.respondOk [correctionFlag st])

/-- `DEC_WRF [ST0..ST5]` (R152). -/
def execDecWrf (st : Snapshot) (s : State) : Host.Outcome State Fault Refusal :=
  .next (s.respondOk [writeFlag st])

/-- `DEC_SLT [ST0..ST5], IX` (R153). -/
def execDecSlt (st : Snapshot) (ix : Byte) (s : State) : Host.Outcome State Fault Refusal :=
  .next (match sliderOf ix with
    | some i => s.respondOk [sliderTouched s.params st i]
    | none => s.raise .preconditionViolated)

/-- `DEC_KEY [ST0..ST5], IX` (R154). -/
def execDecKey (st : Snapshot) (ix : Byte) (s : State) : Host.Outcome State Fault Refusal :=
  .next (match keyOf ix with
    | some k => s.respondOk [keyPressed s.params st k]
    | none => s.raise .preconditionViolated)

/-- `DEC_POS [ST0..ST5], IX` (R155). -/
def execDecPos (st : Snapshot) (ix : Byte) (s : State) : Host.Outcome State Fault Refusal :=
  .next (match sliderOf ix with
    | some i => s.respondOk [sliderPosition st i]
    | none => s.raise .preconditionViolated)

end Sys2Proof.Machine
end

