-- ==== Sys2Proof/Machine/Threshold.lean ====
section
/-! DEFINITION. The threshold transcoder: ENC_THR_KEY, ENC_THR_SLP, DEC_THR (41_threshold). -/

namespace Sys2Proof.Machine

/-- `ENC_THR_KEY K, V` (R124): no value of `V` is an error (R127, R188). -/
def execEncThrKey (k : Byte) (v : Magnitude) (s : State) : Host.Outcome State Fault Refusal :=
  .next (if keyTargetLegal k then s.respondOk (thrKeyEntry k v) else s.raise .preconditionViolated)

/-- `ENC_THR_SLP V` (R125). -/
def execEncThrSlp (v : Magnitude) (s : State) : Host.Outcome State Fault Refusal :=
  .next (s.respondOk (thrSleepEntry v))

/-- `DEC_THR IB, B1, B2` (R126): target index, then the magnitude low byte first; no range check on it. -/
def execDecThr (ib b1 : Byte) (b2h b2l : BitVec 4) (s : State) : Host.Outcome State Fault Refusal :=
  .next (if decThrLegal ib b2l then
    s.respondOk [thrTarget ib, (thrValue b1 (b2h ++ b2l)).extractLsb' 0 8,
      (thrValue b1 (b2h ++ b2l)).extractLsb' 8 8]
  else s.raise .preconditionViolated)

end Sys2Proof.Machine
end

