-- ==== Sys2Proof/Machine/Transactions.lean ====
section
/-! DEFINITION. The handle and the transport transactions: INIT, WR_CFG, WR_THR_KEY, WR_THR_SLP, RD_STATUS
(44_transactions), with their checks in the order of R195. -/

namespace Sys2Proof.Machine

/-- `INIT A, TR, TW` (R165). `InvalidTransport` is the one error that changes state (R186). -/
def execInit (rsv1 : BitVec 1) (a : BusAddr) (rsv2 : BitVec 6) (tw tr : Bool) (s : State) :
    Host.Outcome State Fault Refusal :=
  .next (if !initLegal rsv1 rsv2 then s.raise .preconditionViolated
  else if s.hstate ≠ .uninit then s.raise .preconditionViolated
  else if tr = false ∨ tw = false then (s.setHState .failed).raise .invalidTransport
  else ((s.setDevAddr (some a)).setHState .ready).respondOk [])

/-- `WR_CFG F1, ..., F13` (R166). -/
def execWrCfg (f : Settings) (s : State) : Host.Outcome State Fault Refusal :=
  .next (if validCfg s.params f then
    s.withHandle (State.memWrite Config.cfgLen (packCfg s.params f).bytes)
  else s.raise .preconditionViolated)

/-- `WR_THR_KEY K, V` (R167). -/
def execWrThrKey (k : Byte) (v : Magnitude) (s : State) : Host.Outcome State Fault Refusal :=
  .next (if keyTargetLegal k then s.withHandle (State.memWrite Config.thrLen (thrKeyEntry k v))
  else s.raise .preconditionViolated)

/-- `WR_THR_SLP V` (R168). -/
def execWrThrSlp (v : Magnitude) (s : State) : Host.Outcome State Fault Refusal :=
  .next (s.withHandle (State.memWrite Config.thrLen (thrSleepEntry v)))

/-- `RD_STATUS` (R169): the bytes pass through undecoded and are not kept. -/
def execRdStatus (s : State) : Host.Outcome State Fault Refusal :=
  .next (s.withHandle (State.memRead Config.statusLen))

end Sys2Proof.Machine
end

