-- ==== Sys2Proof/Machine/Dispatch.lean ====
section
/-! DEFINITION. One arm for each command of VKC-1 (R95). -/

namespace Sys2Proof.Machine

def exec (i : Instr) (s : State) : Host.Outcome State Fault Refusal :=
  match i with
  | .init rsv1 a rsv2 tw tr => Sys2Proof.Machine.execInit rsv1 a rsv2 tw tr s
  | .extract b sb n => Sys2Proof.Machine.execExtract b sb n s
  | .encThrKey k v => Sys2Proof.Machine.execEncThrKey k v s
  | .encThrSlp v => Sys2Proof.Machine.execEncThrSlp v s
  | .decThr ib b1 b2h b2l => Sys2Proof.Machine.execDecThr ib b1 b2h b2l s
  | .packCfg f => Sys2Proof.Machine.execPackCfg f s
  | .decCorr st => Sys2Proof.Machine.execDecCorr st s
  | .decWrf st => Sys2Proof.Machine.execDecWrf st s
  | .decSlt st ix => Sys2Proof.Machine.execDecSlt st ix s
  | .decKey st ix => Sys2Proof.Machine.execDecKey st ix s
  | .decPos st ix => Sys2Proof.Machine.execDecPos st ix s
  | .wrCfg f => Sys2Proof.Machine.execWrCfg f s
  | .wrThrKey k v => Sys2Proof.Machine.execWrThrKey k v s
  | .wrThrSlp v => Sys2Proof.Machine.execWrThrSlp v s
  | .rdStatus => Sys2Proof.Machine.execRdStatus s

end Sys2Proof.Machine
end

