-- ==== Sys2Proof/Machine/Step.lean ====
section
/-! DEFINITION. One step of the block (R19), and where the host's interface places a command. -/

namespace Sys2Proof.Machine

/-- One step (R19). While a request is outstanding the block does nothing but wait for its answer (R52, R71); it
takes no command and no reset (R217, R230). Otherwise it takes what the host presents next: a reset (R216), a
command, which it decodes and runs, or a packet that is no command (R190). With nothing presented it is idle: it
never acts of its own accord (R18, R193; log 2). -/
def step (s : State) : Host.Outcome State Fault Refusal :=
  match s.pending with
  | some _ => .next s.settle
  | none =>
    match s.hostInputs with
    | [] => .next s
    | .rst :: rest => .next (s.setHostInputs rest).takeReset
    | .command packet :: rest =>
      match decode packet with
      | .ok i => exec i (s.setHostInputs rest)
      | .error _ => .next (s.setHostInputs rest).answerIllegal

/-- The state in which the host presents a command next: its packet is the first of the host's inputs, and no
earlier request is outstanding (a command is presented only after the response to the previous one, R225; log 2). -/
def State.withFetchWord (s : State) (nbits w : Nat) : State :=
  { s with pending := none, hostInputs := .command (tablePacket nbits w) :: s.hostInputs }

end Sys2Proof.Machine
end

