-- ==== Sys2Proof/Machine/System.lean ====
section
/-! DEFINITION. Several blocks side by side, one per chip (R200). -/

namespace Sys2Proof.Machine

/-- Let block number `k` of a system take one step; the blocks share nothing (R24, R200). A number that is no block
moves nothing. -/
def stepBlock (k : Nat) (sys : List State) : Host.Outcome (List State) Fault Refusal :=
  match sys[k]? with
  | none => .next sys
  | some s =>
    match step s with
    | .next t => .next (sys.set k t)
    | .fault r => .fault r
    | .refused r => .refused r

end Sys2Proof.Machine
end

