-- ==== Sys2Proof/Safety.lean ====
section
/-! DEFINITION. What counts as a safe state of the block and its ports, the named environment assumptions EA1 to EA4
(R42 to R45), and the host's duties (R218 to R232). The block neither assumes nor checks the last two: a claim that
needs one names it (R41, R71, D25). -/

namespace Sys2Proof.Safety

open Sys2Proof.Machine

/-! ### The block -/

/-- `DEV_ADDR` has a value exactly while `HSTATE` is `READY` (R47, R165, R216). -/
def handleCoherent (s : State) : Bool := (s.hstate == .ready) == s.devAddr.isSome

/-- A threshold group as the block can send it (R33, R34): a legal index byte, the magnitude in [8, 999] for a
per-key entry and [0, 999] for the sleep entry, the low nibble of `THR_B2` zero. -/
def thresholdGroup (ib b1 b2 : Byte) : Bool :=
  indexByteLegal ib && b2.extractLsb' 0 4 == 0#4 && (thrValue b1 b2).toNat ≤ 999
    && (ib == Config.thrIndexSleep || 8 ≤ (thrValue b1 b2).toNat)

/-- A group of bytes that is one of the two write formats of R56. -/
def writeGroup : List Byte → Bool
  | [_, _, _, _] => true
  | [ib, b1, b2] => thresholdGroup ib b1 b2
  | _ => false

/-- A request the block can make (R51, R54, R56): the sentinel register address, a whole group, its own length. -/
def requestLegal (p : Params) : TReq → Bool
  | .wr _ reg n data => reg == p.regAddrSentinel && n == data.length && writeGroup data
  | .rd _ reg n => reg == p.regAddrSentinel && n == 6

/-- The bus address of a request. -/
def requestDev : TReq → BusAddr
  | .wr dev _ _ _ => dev
  | .rd dev _ _ => dev

/-- An event the block can record (R56, R70): six bytes for a read that succeeded, none for one that failed. -/
def eventLegal (p : Params) : Ev → Bool
  | .write dev reg n bytes _ => requestLegal p (.wr dev reg n bytes)
  | .read dev reg n ok bytes => requestLegal p (.rd dev reg n) && bytes.length == (if ok then 6 else 0)

/-- A packet the block can send (R81, R185): a known status code, a payload of at most six bytes, and none unless the
status is `OK`. -/
def responseLegal : List Byte → Bool
  | [] => false
  | st :: payload => st.toNat ≤ 5 && (st == 0x00#8 || payload.isEmpty) && payload.length ≤ 6

/-- The handle and the request of a command that waits: one the block can make, on its own bus address. -/
def pendingOwned (s : State) : Bool :=
  match s.pending with
  | none => true
  | some req => requestLegal s.params req && s.devAddr == some (requestDev req)

/-- The invariant of the machine: every step keeps it, and it holds at reset. -/
def invariant (s : State) : Bool :=
  s.params.admissible && handleCoherent s && pendingOwned s && s.events.all (eventLegal s.params)
    && s.responses.all responseLegal

/-- A command waits for a transport that does not answer: a hang (R71, R230). -/
def hung (s : State) : Bool := s.pending.isSome && s.answers.isEmpty

/-- The run is over: the host sends no further command and none is waiting (R234). DEDUCED: a reset still to come is
no command and keeps no run open, since R234 names commands only (log 20). -/
def runOver (s : State) : Bool := s.pending.isNone && s.hostInputs.all (· == .rst)

/-! ### The environment -/

/-- A write in the event history, of either format of R56 and whatever its answer (R45, R166). -/
def isWrite : Ev → Bool
  | .write _ _ _ _ _ => true
  | .read _ _ _ _ _ => false

/-- `EA1`, write flag (R42), first half: in the events with one chip since its power-up, a successful read with no write
before it brings write flag 1. It says nothing of a read after a threshold write, since whether such a write affects
the flag is not in the source (R167, N24; log 14), and nothing of a read after a settings write. -/
def EA1PowerUp (es : List Ev) : Prop :=
  ∀ before after dev reg n st0 rest, es = before ++ .read dev reg n true (st0 :: rest) :: after →
    before.any isWrite = false → st0.getLsbD 6 = true

/-- `EA1`, second half: among the snapshots read after a settings write that the chip acknowledges, one has write
flag 0. No bound is known (R42, R219). -/
def EA1Acknowledged (snaps : Nat → Snapshot) : Prop := ∃ n, writeFlag (snaps n) = 0x00#8

/-- `EA2`, correction flag (R43): it is 0 while the chip calibrates. -/
def EA2 (calibrating : Bool) (st : Snapshot) : Prop := calibrating = true → correctionFlag st = 0x00#8

/-- `EA3` (R44), one of the two halves that do not agree: the position byte keeps the last touched position, and is 0
when there was none. A claim assumes neither half unless it says so (C8). -/
def EA3Retained (lastTouched : Option Byte) (st : Snapshot) (i : Fin 3) : Prop :=
  sliderPosition st i = lastTouched.getD 0x00#8

/-- `EA3` (R44), the other half: the position byte of a slider at rest is 0. -/
def EA3AtRest (touched : Bool) (st : Snapshot) (i : Fin 3) : Prop :=
  touched = false → sliderPosition st i = 0x00#8

/-- `EA4` (R45): a settings write changes the chip's settings by the whole group or not at all. -/
def EA4 (before sent after : CfgGroup) : Prop := after = before ∨ after = sent

/-! ### The host's duties -/

/-- R218: of the commands a host sends from `UNINIT`, without a reset among them, one `INIT` with both capabilities is
answered `OK` before the first transaction. DEDUCED, which `INIT`s count (log 18): one with reserved bits set is refused
and leaves the way open for another, one with a null capability closes it, and one after the good one does not matter
here (`initOnce` is that duty). -/
def handleFirst : List Instr → Bool
  | [] => true
  | i :: rest =>
    match i with
    | .init rsv1 _ rsv2 tw tr => if initLegal rsv1 rsv2 then tw && tr else handleFirst rest
    | .wrCfg _ | .wrThrKey _ _ | .wrThrSlp _ | .rdStatus => false
    | .extract _ _ _ | .encThrKey _ _ | .encThrSlp _ | .decThr _ _ _ _ | .packCfg _ | .decCorr _ | .decWrf _
    | .decSlt _ _ | .decKey _ _ | .decPos _ _ => handleFirst rest

/-- R232, "do it once": the host sends at most one `INIT`. DEDUCED: one that is refused counts as sent, and the "first"
of R232 is before the first transaction, which is `handleFirst` (log 18). -/
def initOnce (commands : List Instr) : Bool := (commands.filter (·.opcode == .init)).length ≤ 1

/-- R219: the host may take a settings write for confirmed by this snapshot. -/
def confirmsSettings (st : Snapshot) : Bool := writeFlag st == 0x00#8

/-- R220: key bits, touch bits and positions of a snapshot may be used only when its correction flag is 1. -/
def usable (st : Snapshot) : Bool := correctionFlag st == 0x01#8

/-- R226, in the reading the rule records and builds into nothing: a higher-numbered slider is enabled only if every
lower-numbered one is (log 15). -/
def ascendingSliders (p : Params) (f : Settings) : Bool :=
  (f.slide2Size == p.slideDisable || f.slide1Size != p.slideDisable)
    && (f.slide3Size == p.slideDisable
      || (f.slide2Size != p.slideDisable && f.slide1Size != p.slideDisable))

/-- R227, the pad budget. The number of pads a size stands for and the ordinary key count are not in the source, so
they are arguments. Each slider-size field has a map of its own, since R29 leaves open whether the three share one
enumeration (log 15). -/
def padBudget (pads1 pads2 pads3 : Byte → Nat) (ordinaryKeyCount : Nat) (f : Settings) : Prop :=
  pads1 f.slide1Size + pads2 f.slide2Size + pads3 f.slide3Size + ordinaryKeyCount ≤ 9

/-- R228: the snapshot is the one the latest transport event brought. DESIGN CHOICE, when a snapshot stops being fresh
(log 19): at the next transport event of any kind, a write or a failed read included, and at no decode before it. -/
def freshSnapshot (es : List Ev) (st : Snapshot) : Bool :=
  match es.getLast? with
  | some (.read _ _ _ true bytes) => bytes == st.bytes
  | _ => false

end Sys2Proof.Safety
end

