-- ==== Sys2Proof/WellFormed.lean ====
section
/-! DEFINITION. Which commands have every operand in its legal range (R94, R189 but for the check of `HSTATE`). -/

namespace Sys2Proof

/-- The operand checks of R189, decided from the packet and the parameters alone (R195, item 2). The second
condition of `INIT` there needs the state and is no part of this check. -/
def Instr.wellFormed (p : Params) : Instr → Bool
  | .init rsv1 _ rsv2 _ _ => Machine.initLegal rsv1 rsv2
  | .extract _ s n => Machine.extractLegal s n
  | .encThrKey k _ => Machine.keyTargetLegal k
  | .encThrSlp _ => true
  | .decThr ib _ _ b2l => Machine.decThrLegal ib b2l
  | .packCfg f => Machine.validCfg p f
  | .decCorr _ => true
  | .decWrf _ => true
  | .decSlt _ ix => (Machine.sliderOf ix).isSome
  | .decKey _ ix => (Machine.keyOf ix).isSome
  | .decPos _ ix => (Machine.sliderOf ix).isSome
  | .wrCfg f => Machine.validCfg p f
  | .wrThrKey k _ => Machine.keyTargetLegal k
  | .wrThrSlp _ => true
  | .rdStatus => true

end Sys2Proof
end

