-- ==== Sys2Proof/Certificates/Slice0/Obligations.lean ====
section
/-! DEFINITION. What the spec's rules say the block does, as statements about the model. A next state is written as a
record update: every field that is not named is unchanged. -/

open Sys2Proof Sys2Proof.Machine Sys2Proof.Safety

/-! ### Tables of the spec that the statements below use -/

namespace Sys2Proof.Spec

/-- Opcode and packet length of the fifteen commands, copied from the table of R95 (length = 1 + N). -/
def commandTable : List (Byte × Nat) :=
  [(0x01, 3), (0x10, 4), (0x20, 4), (0x21, 3), (0x22, 4), (0x30, 14), (0x40, 7), (0x41, 7), (0x42, 8), (0x43, 8),
   (0x44, 8), (0x50, 14), (0x51, 4), (0x52, 3), (0x53, 1)]

/-- A packet has an opcode of the table and the length of that opcode. -/
def isCommandPacket (packet : List Byte) : Prop :=
  ∃ row ∈ commandTable, packet.head? = some row.1 ∧ packet.length = row.2

/-- The payload length of an `OK` response, copied from the table of R96. -/
def okPayload : Instr → Nat
  | .init _ _ _ _ _ => 0
  | .extract _ _ _ => 1
  | .encThrKey _ _ => 3
  | .encThrSlp _ => 3
  | .decThr _ _ _ _ => 3
  | .packCfg _ => 4
  | .decCorr _ => 1
  | .decWrf _ => 1
  | .decSlt _ _ => 1
  | .decKey _ _ => 1
  | .decPos _ _ => 1
  | .wrCfg _ => 0
  | .wrThrKey _ _ => 0
  | .wrThrSlp _ => 0
  | .rdStatus => 6

/-- Some setting is not a member of its enumeration. -/
def someSettingIllegal (p : Params) (f : Settings) : Prop := ∃ i, f.get i ∉ p.cfgLegal.get i

/-- The complete list of R189, row by row. -/
def preconditionBroken (s : State) : Instr → Prop
  | .init rsv1 _ rsv2 _ _ => rsv1 ≠ 0#1 ∨ rsv2 ≠ 0#6 ∨ s.hstate ≠ .uninit
  | .extract _ sb n => 7 < sb.toNat ∨ 8 < sb.toNat + n.toNat
  | .encThrKey k _ => 9 < k.toNat
  | .encThrSlp _ => False
  | .decThr ib _ _ b2l => ¬ (0xC0 ≤ ib.toNat ∧ ib.toNat ≤ 0xC9 ∨ ib.toNat = 0xD0) ∨ b2l ≠ 0#4
  | .packCfg f => someSettingIllegal s.params f
  | .decCorr _ => False
  | .decWrf _ => False
  | .decSlt _ ix => ix.toNat < 1 ∨ 3 < ix.toNat
  | .decKey _ ix => ix.toNat < 1 ∨ 9 < ix.toNat
  | .decPos _ ix => ix.toNat < 1 ∨ 3 < ix.toNat
  | .wrCfg f => someSettingIllegal s.params f
  | .wrThrKey k _ => 9 < k.toNat
  | .wrThrSlp _ => False
  | .rdStatus => False

/-- A field covers a bit of a byte of the settings group. -/
def covers (p : Params) (i : Field) (j : CfgByte) (b : Nat) : Prop :=
  (p.cfgField.get i).byte = j ∧ (p.cfgField.get i).start ≤ b
    ∧ b < (p.cfgField.get i).start + (p.cfgField.get i).width

/-- The request of each transaction command, copied from the pseudocode of R166 to R169 with R120 to R122. -/
def requestOf (p : Params) (a : BusAddr) : Instr → Option TReq
  | .wrCfg f => some (.wr a p.regAddrSentinel 4 (packCfg p f).bytes)
  | .wrThrKey k v => some (.wr a p.regAddrSentinel 3
      [BitVec.ofNat 8 (0xC0 + k.toNat), BitVec.ofNat 8 ((min (max v.toInt 8) 999).toNat % 256),
       BitVec.ofNat 8 ((min (max v.toInt 8) 999).toNat / 256 * 16)])
  | .wrThrSlp v => some (.wr a p.regAddrSentinel 3
      [0xD0#8, BitVec.ofNat 8 ((min (max v.toInt 0) 999).toNat % 256),
       BitVec.ofNat 8 ((min (max v.toInt 0) 999).toNat / 256 * 16)])
  | .rdStatus => some (.rd a p.regAddrSentinel 6)
  | .init _ _ _ _ _ => none
  | .extract _ _ _ => none
  | .encThrKey _ _ => none
  | .encThrSlp _ => none
  | .decThr _ _ _ _ => none
  | .packCfg _ => none
  | .decCorr _ => none
  | .decWrf _ => none
  | .decSlt _ _ => none
  | .decKey _ _ => none
  | .decPos _ _ => none

/-- R98 for one opcode: a packet with any other number of operand bytes is answered `IllegalCommand`. -/
def refusesOtherLengths (op : Byte) (n : Nat) : Prop :=
  ∀ (s : State) (operands : List Byte) (rest : List HostInput), operands.length ≠ n → s.pending = none →
    s.hostInputs = .command (op :: operands) :: rest →
    step s = .next { s with hostInputs := rest, responses := s.responses ++ [[0x04#8]] }

end Sys2Proof.Spec

open Sys2Proof.Spec

/-! ### Reset and the step -/

/-- R46, R47: after reset `HSTATE` is `UNINIT` and `DEV_ADDR` has no value. -/
def Obligations.ResetLeavesNoHandle : Prop :=
  State.reset.hstate = .uninit ∧ State.reset.devAddr = none

/-- R216: a reset taken between commands clears the handle; no response is sent and no request made. -/
def Obligations.ResetClearsOnlyHandle : Prop :=
  ∀ (s : State) (rest : List HostInput), s.pending = none → s.hostInputs = .rst :: rest →
    step s = .next { s with hstate := .uninit, devAddr := none, hostInputs := rest }

/-- R19: a presented packet that decodes to a command runs that command, the packet taken from the host. -/
def Obligations.StepRunsDecodedCommand : Prop :=
  ∀ (s : State) (packet : List Byte) (rest : List HostInput) (i : Instr), s.pending = none →
    s.hostInputs = .command packet :: rest → decode packet = .ok i →
    step s = exec i { s with hostInputs := rest }

/-- R97, R98, R190: a packet that is not in the opcode map with its length is answered `IllegalCommand` and changes
nothing; every other packet decodes to a command. -/
def Obligations.IllegalPacketsExactly : Prop :=
  (∀ packet, isCommandPacket packet → ∃ i, decode packet = .ok i) ∧
  (∀ (s : State) (packet : List Byte) (rest : List HostInput), ¬ isCommandPacket packet → s.pending = none →
    s.hostInputs = .command packet :: rest →
    step s = .next { s with hostInputs := rest, responses := s.responses ++ [[0x04#8]] })

/-- R18, R193: with nothing presented and nothing outstanding the block does nothing. That this is a step that changes
nothing is the model's choice (log 2). -/
def Obligations.IdleBlockDoesNothing : Prop :=
  ∀ s : State, s.pending = none → s.hostInputs = [] → step s = .next s

/-- R71, R217, R230: while a request is outstanding and unanswered the block waits, whatever the host presents, a
reset included. Waiting as a step that changes nothing is the model's choice (log 4). -/
def Obligations.WaitingBlockTakesNothing : Prop :=
  ∀ (s : State) (req : TReq), s.pending = some req → s.answers = [] → step s = .next s

/-- R52, R53, R71: an answer that comes while the block waits ends the command as the answer at once would have. That
an answer may come in a later step is the model's choice (log 4). -/
def Obligations.LateAnswerCompletesCommand : Prop :=
  ∀ (s : State) (ans : TAns) (rest : List TAns), s.answers = ans :: rest →
    (∀ dev reg n data, s.pending = some (.wr dev reg n data) →
      step s = .next { s with pending := none, answers := rest,
                              events := s.events ++ [.write dev reg n data ans.ok],
                              responses := s.responses ++ [if ans.ok then [0x00#8] else [0x02#8]] }) ∧
    (∀ dev reg n, s.pending = some (.rd dev reg n) →
      step s = .next { s with pending := none, answers := rest,
                              events := s.events ++ [.read dev reg n ans.ok (if ans.ok then ans.data.bytes else [])],
                              responses := s.responses ++
                                [if ans.ok then 0x00#8 :: ans.data.bytes else [0x02#8]] })

/-! ### Encoding -/

/-- Every command comes back from its own packet, with every operand at every value. -/
def Obligations.DecodeInvertsEncode : Prop := ∀ i : Instr, decode (encode i) = .ok i

/-- A packet has one meaning and no bit of it is dropped: what it decodes to encodes to it. -/
def Obligations.EncodeInvertsDecode : Prop :=
  ∀ (packet : List Byte) (i : Instr), decode packet = .ok i → encode i = packet

/-- R83 to R92: packets written out from the formats decode to the commands they stand for. -/
def Obligations.SamplePacketsDecode : Prop :=
  decode [0x01, 0x50, 0x03] = .ok (.init 0#1 0x50#7 0#6 true true) ∧
  decode [0x10, 0xA0, 0x05, 0x03] = .ok (.extract 0xA0 5 3) ∧
  decode [0x20, 0x00, 0xB0, 0x04] = .ok (.encThrKey 0 (BitVec.ofInt 16 1200)) ∧
  decode [0x22, 0xC3, 0xE7, 0x30] = .ok (.decThr 0xC3 0xE7 3#4 0#4) ∧
  decode [0x43, 0xC4, 0x01, 0x01, 0x32, 0x00, 0x00, 0x09] = .ok (.decKey ⟨0xC4, 0x01, 0x01, 0x32, 0, 0⟩ 9) ∧
  decode [0x53] = .ok .rdStatus

/-- R95, with the formats R82 to R86 and R89 to R92: every packet of every format is the command of its opcode, each
operand where its format has it. -/
def Obligations.PacketsHaveTheirFormats : Prop :=
  (∀ (rsv1 : BitVec 1) (a : BusAddr) (rsv2 : BitVec 6) (tw tr : Bool) (b1 b2 : Byte),
    b1.toNat = 128 * rsv1.toNat + a.toNat → b2.toNat = 4 * rsv2.toNat + 2 * tw.toNat + tr.toNat →
    decode [0x01, b1, b2] = .ok (.init rsv1 a rsv2 tw tr)) ∧
  (∀ b s n : Byte, decode [0x10, b, s, n] = .ok (.extract b s n)) ∧
  (∀ (k vl vh : Byte) (v : Magnitude), v.toNat = 256 * vh.toNat + vl.toNat →
    decode [0x20, k, vl, vh] = .ok (.encThrKey k v) ∧ decode [0x21, vl, vh] = .ok (.encThrSlp v) ∧
    decode [0x51, k, vl, vh] = .ok (.wrThrKey k v) ∧ decode [0x52, vl, vh] = .ok (.wrThrSlp v)) ∧
  (∀ (ib b1 b2 : Byte) (b2h b2l : BitVec 4), b2.toNat = 16 * b2h.toNat + b2l.toNat →
    decode [0x22, ib, b1, b2] = .ok (.decThr ib b1 b2h b2l)) ∧
  (∀ f : Settings,
    let operands := [f.mode, f.thresholdClass, f.keyOutputMode, f.autoAdjust, f.powerSave, f.dynamicThreshold,
      f.autoResetTime, f.keyCount, f.keyAckTime, f.slide1Size, f.slide2Size, f.slide3Size, f.keyOffCount]
    decode (0x30 :: operands) = .ok (.packCfg f) ∧ decode (0x50 :: operands) = .ok (.wrCfg f)) ∧
  (∀ b0 b1 b2 b3 b4 b5 ix : Byte,
    decode [0x40, b0, b1, b2, b3, b4, b5] = .ok (.decCorr ⟨b0, b1, b2, b3, b4, b5⟩) ∧
    decode [0x41, b0, b1, b2, b3, b4, b5] = .ok (.decWrf ⟨b0, b1, b2, b3, b4, b5⟩) ∧
    decode [0x42, b0, b1, b2, b3, b4, b5, ix] = .ok (.decSlt ⟨b0, b1, b2, b3, b4, b5⟩ ix) ∧
    decode [0x43, b0, b1, b2, b3, b4, b5, ix] = .ok (.decKey ⟨b0, b1, b2, b3, b4, b5⟩ ix) ∧
    decode [0x44, b0, b1, b2, b3, b4, b5, ix] = .ok (.decPos ⟨b0, b1, b2, b3, b4, b5⟩ ix)) ∧
  decode [0x53] = .ok .rdStatus

/-- R87: the magnitude operand is the signed number of its two bytes, low byte first. -/
def Obligations.MagnitudeIsSignedLittleEndian : Prop :=
  ∀ (k vl vh : Byte), ∃ v : Magnitude,
    v.toInt = (if vh.toNat < 128 then (vl.toNat : Int) + 256 * vh.toNat
               else (vl.toNat : Int) + 256 * vh.toNat - 65536) ∧
    decode [0x20, k, vl, vh] = .ok (.encThrKey k v) ∧ decode [0x21, vl, vh] = .ok (.encThrSlp v) ∧
    decode [0x51, k, vl, vh] = .ok (.wrThrKey k v) ∧ decode [0x52, vl, vh] = .ok (.wrThrSlp v)

/-! ### The bit-field codec -/

/-- R112, R110: EXTRACT answers the field in plain arithmetic, or `PreconditionViolated` outside the ranges. -/
def Obligations.ExtractAnswersField : Prop :=
  refusesOtherLengths 0x10 3 ∧
  ∀ (b sb n : Byte) (s : State),
    (sb.toNat ≤ 7 → n.toNat ≤ 8 - sb.toNat →
      exec (.extract b sb n) s = .next { s with responses := s.responses ++
        [[0x00#8, BitVec.ofNat 8 (b.toNat / 2 ^ sb.toNat % 2 ^ n.toNat)]] }) ∧
    (7 < sb.toNat ∨ 8 < sb.toNat + n.toNat →
      exec (.extract b sb n) s = .next { s with responses := s.responses ++ [[0x03#8]] })

/-- R113: the laws of `Extract` and `Place`. -/
def Obligations.ExtractAndPlaceLaws : Prop :=
  (∀ b h0 h8, extractField b 0 8 h0 h8 = b) ∧
  (∀ b s hs h1, extractField b s 1 hs h1 = if b.getLsbD s then 0x01#8 else 0x00#8) ∧
  (∀ b s hs h0, extractField b s 0 hs h0 = 0x00#8) ∧
  (∀ (v r : Byte) s n hs hn, v.toNat < 2 ^ n → (∀ i, s ≤ i → i < s + n → r.getLsbD i = false) →
    extractField (placeField v s ||| r) s n hs hn = v) ∧
  (∀ b s n hs hn h8, (extractField b s n hs hn).toNat = (extractField b s (8 - s) hs h8).toNat % 2 ^ n) ∧
  (∀ b c s n hs hn, (∀ i, s ≤ i → i < s + n → b.getLsbD i = c.getLsbD i) →
    extractField b s n hs hn = extractField c s n hs hn)

/-! ### The threshold transcoder -/

/-- R124: ENC_THR_KEY clamps to [8, 999], places the nibbles, and is never refused for its magnitude. -/
def Obligations.EncodesKeyThreshold : Prop :=
  refusesOtherLengths 0x20 3 ∧
  ∀ (k : Byte) (v : Magnitude) (s : State),
    (k.toNat ≤ 9 →
      exec (.encThrKey k v) s = .next { s with responses := s.responses ++
        [[0x00#8, BitVec.ofNat 8 (0xC0 + k.toNat),
          BitVec.ofNat 8 ((min (max v.toInt 8) 999).toNat % 256),
          BitVec.ofNat 8 ((min (max v.toInt 8) 999).toNat / 256 * 16)]] }) ∧
    (9 < k.toNat →
      exec (.encThrKey k v) s = .next { s with responses := s.responses ++ [[0x03#8]] })

/-- R125: ENC_THR_SLP clamps to [0, 999]; every magnitude is accepted. -/
def Obligations.EncodesSleepThreshold : Prop :=
  refusesOtherLengths 0x21 2 ∧
  ∀ (v : Magnitude) (s : State),
    exec (.encThrSlp v) s = .next { s with responses := s.responses ++
      [[0x00#8, 0xD0#8, BitVec.ofNat 8 ((min (max v.toInt 0) 999).toNat % 256),
        BitVec.ofNat 8 ((min (max v.toInt 0) 999).toNat / 256 * 16)]] }

/-- R121: where each nibble of the 12-bit magnitude goes, and the equivalent arithmetic. -/
def Obligations.NibblePlacement : Prop :=
  ∀ c : BitVec 12,
    (thrData c).1.extractLsb' 0 4 = c.extractLsb' 0 4 ∧ (thrData c).1.extractLsb' 4 4 = c.extractLsb' 4 4 ∧
    (thrData c).2.extractLsb' 4 4 = c.extractLsb' 8 4 ∧ (thrData c).2.extractLsb' 0 4 = 0#4 ∧
    (thrData c).1.toNat = c.toNat % 256 ∧ (thrData c).2.toNat = (c.toNat / 256) * 16

/-- R126: DEC_THR answers target and magnitude of an entry an encoder can produce, and refuses every other. -/
def Obligations.DecodesThreshold : Prop :=
  refusesOtherLengths 0x22 3 ∧
  ∀ (ib b1 : Byte) (b2h b2l : BitVec 4) (s : State),
    (0xC0 ≤ ib.toNat → ib.toNat ≤ 0xC9 → b2l = 0#4 →
      exec (.decThr ib b1 b2h b2l) s = .next { s with responses := s.responses ++
        [[0x00#8, BitVec.ofNat 8 (ib.toNat - 0xC0), b1, BitVec.ofNat 8 b2h.toNat]] }) ∧
    (ib.toNat = 0xD0 → b2l = 0#4 →
      exec (.decThr ib b1 b2h b2l) s = .next { s with responses := s.responses ++
        [[0x00#8, 0xD0#8, b1, BitVec.ofNat 8 b2h.toNat]] }) ∧
    (¬ (0xC0 ≤ ib.toNat ∧ ib.toNat ≤ 0xC9 ∨ ib.toNat = 0xD0) ∨ b2l ≠ 0#4 →
      exec (.decThr ib b1 b2h b2l) s = .next { s with responses := s.responses ++ [[0x03#8]] })

/-- R123: the reconstruction formula; reconstruction undoes placement for all 4096 magnitudes; at the port, decoding the encoding of any magnitude
gives target and clamped magnitude back, which is the magnitude itself when it is in range. -/
def Obligations.ThresholdRoundTrip : Prop :=
  (∀ b1 b2 : Byte, (thrValue b1 b2).toNat = b1.toNat + b2.toNat / 16 * 256) ∧
  (∀ c : BitVec 12, (thrValue (thrData c).1 (thrData c).2).toNat = c.toNat) ∧
  (∀ (k : Byte) (v : Magnitude) (s : State), k.toNat ≤ 9 → ∃ (b1 : Byte) (b2h b2l : BitVec 4) (c : Nat),
    exec (.encThrKey k v) s = .next { s with responses := s.responses ++ [[0x00#8, 0xC0#8 + k, b1, b2h ++ b2l]] } ∧
    exec (.decThr (0xC0#8 + k) b1 b2h b2l) s = .next { s with responses := s.responses ++
      [[0x00#8, k, BitVec.ofNat 8 (c % 256), BitVec.ofNat 8 (c / 256)]] } ∧
    (c : Int) = min (max v.toInt 8) 999) ∧
  (∀ (v : Magnitude) (s : State), ∃ (b1 : Byte) (b2h b2l : BitVec 4) (c : Nat),
    exec (.encThrSlp v) s = .next { s with responses := s.responses ++ [[0x00#8, 0xD0#8, b1, b2h ++ b2l]] } ∧
    exec (.decThr 0xD0#8 b1 b2h b2l) s = .next { s with responses := s.responses ++
      [[0x00#8, 0xD0#8, BitVec.ofNat 8 (c % 256), BitVec.ofNat 8 (c / 256)]] } ∧
    (c : Int) = min (max v.toInt 0) 999)

/-! ### The configuration packer -/

/-- R137: PACK_CFG answers the packed group when every setting is a member of its enumeration, and refuses otherwise. -/
def Obligations.PackCfgAnswersGroup : Prop :=
  refusesOtherLengths 0x30 13 ∧
  ∀ (f : Settings) (s : State),
    ((∀ i, f.get i ∈ s.params.cfgLegal.get i) →
      exec (.packCfg f) s = .next { s with responses := s.responses ++ [0x00#8 :: (packCfg s.params f).bytes] }) ∧
    (someSettingIllegal s.params f →
      exec (.packCfg f) s = .next { s with responses := s.responses ++ [[0x03#8]] })

/-- R135: a bit of the group is the OR of the placed fields of that byte and of nothing else, for any parameters. -/
def Obligations.PackedBitsAreFieldBits : Prop :=
  ∀ (p : Params) (f : Settings) (j : CfgByte) (b : Nat), b < 8 →
    (((packCfg p f).get j).getLsbD b = true ↔
      ∃ i, (p.cfgField.get i).byte = j ∧ (p.cfgField.get i).start ≤ b
        ∧ (f.get i).getLsbD (b - (p.cfgField.get i).start) = true)

/-- R141, R31: every field reads back from the packed bytes, a bit of no field is 0, and packing is injective on valid
settings. -/
def Obligations.PackedFieldsReadBack : Prop :=
  ∀ p : Params, p.admissible = true →
    (∀ (f : Settings) (i : Field) hs hn, validCfg p f = true →
      extractField ((packCfg p f).get (p.cfgField.get i).byte) (p.cfgField.get i).start
        (p.cfgField.get i).width hs hn = f.get i) ∧
    (∀ (f : Settings) (j : CfgByte) (b : Nat), validCfg p f = true → (∀ i, ¬ covers p i j b) →
      ((packCfg p f).get j).getLsbD b = false) ∧
    (∀ f g : Settings, validCfg p f = true → validCfg p g = true → packCfg p f = packCfg p g → f = g)

/-- R139: the third byte is slider 2's size above slider 1's size, whatever the open parameters are. -/
def Obligations.ThirdByteIsSliderSizes : Prop :=
  ∀ (p : Params) (f : Settings), p.admissible = true → validCfg p f = true →
    f.slide1Size.toNat < 16 ∧ f.slide2Size.toNat < 16 ∧
    (packCfg p f).cfg3 = (f.slide2Size <<< 4) ||| f.slide1Size ∧
    (∀ h0 h4, extractField (packCfg p f).cfg3 0 4 h0 h4 = f.slide1Size) ∧
    (∀ h0 h4, extractField (packCfg p f).cfg3 4 4 h0 h4 = f.slide2Size)

/-- R140: under the named property that ties defaults to the factory sequence, PACK_DEFAULT answers that sequence. -/
def Obligations.DefaultsPackToFactorySequence : Prop :=
  ∀ s : State, s.params.admissible = true → factoryDefault s.params →
    exec (Pseudo.packDefault.expand s.params) s =
      .next { s with responses := s.responses ++ [0x00#8 :: s.params.cfgFactory.bytes] }

/-- R28: the seven fields of the first byte are all one bit wide and leave one bit over, or one of them is two bits
wide and every bit belongs to a field. -/
def Obligations.FirstByteFieldWidths : Prop :=
  ∀ p : Params, p.admissible = true →
    ((∀ i : Field, i.home = .cfg1 → (p.cfgField.get i).width = 1) ∧
      (∃ b, b < 8 ∧ (∀ i, ¬ covers p i .cfg1 b) ∧ ∀ c, c < 8 → c ≠ b → ∃ i, covers p i .cfg1 c)) ∨
    (∃ i : Field, i.home = .cfg1 ∧ (p.cfgField.get i).width = 2 ∧
      (∀ j : Field, j.home = .cfg1 → j ≠ i → (p.cfgField.get j).width = 1) ∧
      ∀ b, b < 8 → ∃ j, covers p j .cfg1 b)

/-! ### The status decoder -/

/-- R151, R152: the two flag accessors answer bits 7 and 6 of `ST0`. -/
def Obligations.FlagAccessorsReadSt0 : Prop :=
  refusesOtherLengths 0x40 6 ∧ refusesOtherLengths 0x41 6 ∧
  ∀ (st : Snapshot) (s : State),
    exec (.decCorr st) s = .next { s with responses := s.responses ++
      [[0x00#8, if st.st0.getLsbD 7 then 0x01#8 else 0x00#8]] } ∧
    exec (.decWrf st) s = .next { s with responses := s.responses ++
      [[0x00#8, if st.st0.getLsbD 6 then 0x01#8 else 0x00#8]] }

/-- R153: slider i reads bit `SLT_BIT(i)` of `ST0`; in this implementation `SLT_BIT(i) = 3 - i` (D16, log 8); every other
index is refused. -/
def Obligations.SliderTouchedReadsSt0 : Prop :=
  refusesOtherLengths 0x42 7 ∧
  (∀ (st : Snapshot) (ix : Byte) (s : State),
    (∀ i : Fin 3, ix.toNat = i.val + 1 →
      exec (.decSlt st ix) s = .next { s with responses := s.responses ++
        [[0x00#8, if st.st0.getLsbD (s.params.sltBits[i]).val then 0x01#8 else 0x00#8]] }) ∧
    (ix.toNat < 1 ∨ 3 < ix.toNat →
      exec (.decSlt st ix) s = .next { s with responses := s.responses ++ [[0x03#8]] })) ∧
  (∀ i : Fin 3, (State.reset.params.sltBits[i]).val = 3 - (i.val + 1))

/-- R154: key 9 reads bit 0 of `ST2`, key k of 1 to 8 reads bit `KEY_BIT(k)` of `ST1`; in this implementation
`KEY_BIT(k) = k - 1` (D15, log 8); every other index is refused. -/
def Obligations.KeyPressedReadsSt1AndSt2 : Prop :=
  refusesOtherLengths 0x43 7 ∧
  (∀ (st : Snapshot) (ix : Byte) (s : State),
    (∀ i : Fin 8, ix.toNat = i.val + 1 →
      exec (.decKey st ix) s = .next { s with responses := s.responses ++
        [[0x00#8, if st.st1.getLsbD (s.params.keyBits[i]).val then 0x01#8 else 0x00#8]] }) ∧
    (ix.toNat = 9 →
      exec (.decKey st ix) s = .next { s with responses := s.responses ++
        [[0x00#8, if st.st2.getLsbD 0 then 0x01#8 else 0x00#8]] }) ∧
    (ix.toNat < 1 ∨ 9 < ix.toNat →
      exec (.decKey st ix) s = .next { s with responses := s.responses ++ [[0x03#8]] })) ∧
  (∀ i : Fin 8, (State.reset.params.keyBits[i]).val = (i.val + 1) - 1)

/-- R155: slider 1, 2 or 3 answers the whole byte `ST3`, `ST4` or `ST5`; every other index is refused. -/
def Obligations.SliderPositionIsWholeByte : Prop :=
  refusesOtherLengths 0x44 7 ∧
  ∀ (st : Snapshot) (ix : Byte) (s : State),
    (ix.toNat = 1 → exec (.decPos st ix) s = .next { s with responses := s.responses ++ [[0x00#8, st.st3]] }) ∧
    (ix.toNat = 2 → exec (.decPos st ix) s = .next { s with responses := s.responses ++ [[0x00#8, st.st4]] }) ∧
    (ix.toNat = 3 → exec (.decPos st ix) s = .next { s with responses := s.responses ++ [[0x00#8, st.st5]] }) ∧
    (ix.toNat < 1 ∨ 3 < ix.toNat →
      exec (.decPos st ix) s = .next { s with responses := s.responses ++ [[0x03#8]] })

/-- R38: two snapshots that differ only in `ST0[5:3]` and `ST2[7:1]` decode identically. -/
def Obligations.UndescribedStatusBitsIgnored : Prop :=
  ∀ (a b : Snapshot) (ix : Byte) (s : State),
    (∀ i, i < 8 → ¬ (3 ≤ i ∧ i ≤ 5) → a.st0.getLsbD i = b.st0.getLsbD i) → a.st1 = b.st1 →
    a.st2.getLsbD 0 = b.st2.getLsbD 0 → a.st3 = b.st3 → a.st4 = b.st4 → a.st5 = b.st5 →
    exec (.decCorr a) s = exec (.decCorr b) s ∧ exec (.decWrf a) s = exec (.decWrf b) s ∧
    exec (.decSlt a ix) s = exec (.decSlt b ix) s ∧ exec (.decKey a ix) s = exec (.decKey b ix) s ∧
    exec (.decPos a ix) s = exec (.decPos b ix) s

/-! ### The handle and the transport -/

/-- R165: INIT, check by check. -/
def Obligations.InitCreatesHandleOnce : Prop :=
  refusesOtherLengths 0x01 2 ∧
  ∀ (rsv1 : BitVec 1) (a : BusAddr) (rsv2 : BitVec 6) (tw tr : Bool) (s : State),
    (rsv1 ≠ 0#1 ∨ rsv2 ≠ 0#6 →
      exec (.init rsv1 a rsv2 tw tr) s = .next { s with responses := s.responses ++ [[0x03#8]] }) ∧
    (s.hstate ≠ .uninit →
      exec (.init rsv1 a rsv2 tw tr) s = .next { s with responses := s.responses ++ [[0x03#8]] }) ∧
    (rsv1 = 0#1 → rsv2 = 0#6 → s.hstate = .uninit → (tr = false ∨ tw = false) →
      exec (.init rsv1 a rsv2 tw tr) s =
        .next { s with hstate := .failed, responses := s.responses ++ [[0x01#8]] }) ∧
    (rsv1 = 0#1 → rsv2 = 0#6 → s.hstate = .uninit → tr = true → tw = true →
      exec (.init rsv1 a rsv2 tw tr) s =
        .next { s with hstate := .ready, devAddr := some a, responses := s.responses ++ [[0x00#8]] })

/-- R166: WR_CFG, check by check; past them exactly one write of the four packed bytes, and its answer. -/
def Obligations.WriteSettingsTransaction : Prop :=
  refusesOtherLengths 0x50 13 ∧
  ∀ (f : Settings) (s : State),
    (someSettingIllegal s.params f →
      exec (.wrCfg f) s = .next { s with responses := s.responses ++ [[0x03#8]] }) ∧
    ((∀ i, f.get i ∈ s.params.cfgLegal.get i) → s.hstate ≠ .ready →
      exec (.wrCfg f) s = .next { s with responses := s.responses ++ [[0x05#8]] }) ∧
    (∀ (a : BusAddr) (ans : TAns) (rest : List TAns), (∀ i, f.get i ∈ s.params.cfgLegal.get i) →
      s.hstate = .ready → s.devAddr = some a → s.answers = ans :: rest →
      exec (.wrCfg f) s =
        .next { s with
          pending := none, answers := rest,
          events := s.events ++
            [.write a s.params.regAddrSentinel 4 (packCfg s.params f).bytes ans.ok],
          responses := s.responses ++ [if ans.ok then [0x00#8] else [0x02#8]] })

/-- R167: WR_THR_KEY, check by check; past them exactly one write of the three bytes, and its answer. -/
def Obligations.WriteKeyThresholdTransaction : Prop :=
  refusesOtherLengths 0x51 3 ∧
  ∀ (k : Byte) (v : Magnitude) (s : State),
    (9 < k.toNat → exec (.wrThrKey k v) s = .next { s with responses := s.responses ++ [[0x03#8]] }) ∧
    (k.toNat ≤ 9 → s.hstate ≠ .ready →
      exec (.wrThrKey k v) s = .next { s with responses := s.responses ++ [[0x05#8]] }) ∧
    (∀ (a : BusAddr) (ans : TAns) (rest : List TAns), k.toNat ≤ 9 →
      s.hstate = .ready → s.devAddr = some a → s.answers = ans :: rest →
      exec (.wrThrKey k v) s =
        .next { s with
          pending := none, answers := rest,
          events := s.events ++
            [.write a s.params.regAddrSentinel 3
              [BitVec.ofNat 8 (0xC0 + k.toNat), BitVec.ofNat 8 ((min (max v.toInt 8) 999).toNat % 256),
               BitVec.ofNat 8 ((min (max v.toInt 8) 999).toNat / 256 * 16)] ans.ok],
          responses := s.responses ++ [if ans.ok then [0x00#8] else [0x02#8]] })

/-- R168: WR_THR_SLP: the handle check, then exactly one write of the three bytes, and its answer. -/
def Obligations.WriteSleepThresholdTransaction : Prop :=
  refusesOtherLengths 0x52 2 ∧
  ∀ (v : Magnitude) (s : State),
    (s.hstate ≠ .ready →
      exec (.wrThrSlp v) s = .next { s with responses := s.responses ++ [[0x05#8]] }) ∧
    (∀ (a : BusAddr) (ans : TAns) (rest : List TAns),
      s.hstate = .ready → s.devAddr = some a → s.answers = ans :: rest →
      exec (.wrThrSlp v) s =
        .next { s with
          pending := none, answers := rest,
          events := s.events ++
            [.write a s.params.regAddrSentinel 3
              [0xD0#8, BitVec.ofNat 8 ((min (max v.toInt 0) 999).toNat % 256),
               BitVec.ofNat 8 ((min (max v.toInt 0) 999).toNat / 256 * 16)] ans.ok],
          responses := s.responses ++ [if ans.ok then [0x00#8] else [0x02#8]] })

/-- R169: RD_STATUS: the handle check, then exactly one read of six bytes, passed through unchanged and not kept. -/
def Obligations.ReadStatusTransaction : Prop :=
  refusesOtherLengths 0x53 0 ∧
  ∀ s : State,
    (s.hstate ≠ .ready → exec .rdStatus s = .next { s with responses := s.responses ++ [[0x05#8]] }) ∧
    (∀ (a : BusAddr) (ans : TAns) (rest : List TAns),
      s.hstate = .ready → s.devAddr = some a → s.answers = ans :: rest →
      exec .rdStatus s =
        .next { s with
          pending := none, answers := rest,
          events := s.events ++
            [.read a s.params.regAddrSentinel 6 ans.ok (if ans.ok then ans.data.bytes else [])],
          responses := s.responses ++ [if ans.ok then 0x00#8 :: ans.data.bytes else [0x02#8]] })

/-- R52, R53, R71, R230: a transaction command whose request is not answered leaves the block waiting on its own
request, the one R166 to R169 give it, with no response; that request is a legal one. Holding the request in a field of
State is the model's choice (log 4). -/
def Obligations.UnansweredRequestWaits : Prop :=
  ∀ (i : Instr) (s : State) (a : BusAddr), i.isTransaction = true → i.wellFormed s.params = true →
    s.hstate = .ready → s.devAddr = some a → s.answers = [] →
    ∃ req, requestOf s.params a i = some req ∧ exec i s = .next { s with pending := some req } ∧
      requestLegal s.params req = true ∧ requestDev req = a

/-- R137, R166, R124, R167, R125, R168: what a write command sends is what the matching pure command answers. -/
def Obligations.WritesSendWhatEncodersAnswer : Prop :=
  ∀ (s : State) (a : BusAddr) (ans : TAns) (rest : List TAns),
    s.hstate = .ready → s.devAddr = some a → s.answers = ans :: rest →
    ∀ enc wr : Instr,
      ((∃ f, enc = .packCfg f ∧ wr = .wrCfg f) ∨ (∃ k v, enc = .encThrKey k v ∧ wr = .wrThrKey k v) ∨
        (∃ v, enc = .encThrSlp v ∧ wr = .wrThrSlp v)) →
      enc.wellFormed s.params = true →
      ∃ (bytes : List Byte) (t : State),
        exec enc s = .next { s with responses := s.responses ++ [0x00#8 :: bytes] } ∧
        exec wr s = .next t ∧
        t.events = s.events ++ [.write a s.params.regAddrSentinel bytes.length bytes ans.ok]

/-! ### Rules of the whole machine -/

/-- R171, R156: a pure command's one response depends on the packet and the parameters only, and nothing else
changes, whatever the handle, the ports and the history. -/
def Obligations.PureCommandsIgnoreHandle : Prop :=
  ∀ (i : Instr) (p : Params), i.isPure = true →
    ∃ packet : List Byte, ∀ s : State, s.params = p →
      exec i s = .next { s with responses := s.responses ++ [packet] }

/-- R189: `PreconditionViolated` exactly under the conditions of the rule's table, with no other effect. -/
def Obligations.PreconditionViolatedExactly : Prop :=
  ∀ (i : Instr) (s : State),
    (preconditionBroken s i → exec i s = .next { s with responses := s.responses ++ [[0x03#8]] }) ∧
    (¬ preconditionBroken s i → ∀ t, exec i s = .next t → t.responses ≠ s.responses ++ [[0x03#8]])

/-- R81, R96: a command sends exactly one response, an error of one byte or `OK` with the payload length of its row of
R96, unless its request is still unanswered, when it has sent none. -/
def Obligations.EveryCommandGetsOneResponse : Prop :=
  ∀ (i : Instr) (s t : State), exec i s = .next t →
    (∃ payload : List Byte, t.responses = s.responses ++ [0x00#8 :: payload] ∧ payload.length = okPayload i) ∨
    (∃ st : Byte, t.responses = s.responses ++ [[st]] ∧ 1 ≤ st.toNat ∧ st.toNat ≤ 5) ∨
    (t.responses = s.responses ∧ t.pending.isSome = true ∧ s.answers = [])

/-- R196, R197, R186: an error leaves the block's state as it was, but for `InvalidTransport`; only `TransportFailure`
comes after a request. -/
def Obligations.ErrorsArePrecise : Prop :=
  ∀ (i : Instr) (s t : State) (e : Byte), exec i s = .next t → t.responses = s.responses ++ [[e]] → e ≠ 0x00#8 →
    (e = 0x01#8 → t = { s with hstate := .failed, responses := t.responses }) ∧
    (e = 0x02#8 → ∃ (ev : Ev) (ans : TAns) (rest : List TAns), ans.ok = false ∧ s.answers = ans :: rest ∧
      t = { s with pending := none, answers := rest, events := s.events ++ [ev], responses := t.responses }) ∧
    (e ≠ 0x01#8 → e ≠ 0x02#8 → t = { s with responses := t.responses })

/-- R22, R24: only INIT and reset write the handle, and `DEV_ADDR` gets a value only from an INIT that succeeds. -/
def Obligations.OnlyInitAndResetWriteHandle : Prop :=
  ∀ s t : State, step s = .next t → t.hstate ≠ s.hstate ∨ t.devAddr ≠ s.devAddr →
    s.pending = none ∧
    ((∃ rest, s.hostInputs = .rst :: rest ∧ t.hstate = .uninit ∧ t.devAddr = none) ∨
     (∃ packet rest rsv1 a rsv2 tw tr, s.hostInputs = .command packet :: rest ∧
        decode packet = .ok (.init rsv1 a rsv2 tw tr) ∧ s.hstate = .uninit ∧
        ((t.hstate = .ready ∧ t.devAddr = some a) ∨ (t.hstate = .failed ∧ t.devAddr = s.devAddr))))

/-- R23: only reset leaves `FAILED` or `READY`. -/
def Obligations.OnlyResetLeavesReadyOrFailed : Prop :=
  ∀ s t : State, step s = .next t → s.hstate ≠ .uninit → t.hstate ≠ s.hstate →
    t.hstate = .uninit ∧ s.pending = none ∧ ∃ rest, s.hostInputs = .rst :: rest

/-- R23, R170, R191: with no usable handle no step reaches the transport. -/
def Obligations.NoTransportWithoutHandle : Prop :=
  ∀ s t : State, step s = .next t → s.pending = none → s.hstate ≠ .ready →
    t.events = s.events ∧ t.pending = none ∧ t.answers = s.answers

/-- R55, R172: a transaction command makes one request when it passes its checks and none otherwise, and every other
command makes none. A request shows as one new event or as the outstanding request. -/
def Obligations.OneRequestPerTransaction : Prop :=
  ∀ (i : Instr) (s t : State), s.pending = none → exec i s = .next t →
    ((i.isTransaction = true ∧ i.wellFormed s.params = true ∧ s.hstate = .ready) →
      (t.pending = none ∧ ∃ ev, t.events = s.events ++ [ev]) ∨
      (t.pending.isSome = true ∧ t.events = s.events)) ∧
    (¬ (i.isTransaction = true ∧ i.wellFormed s.params = true ∧ s.hstate = .ready) →
      t.pending = none ∧ t.events = s.events ∧ t.answers = s.answers)

/-- R19, R67: a step takes at most one input of the host and at most one answer, adds at most one response and at most
one event at the end of their sequences, an event only together with its response, and never changes the parameters. -/
def Obligations.StepMovesOneAtATime : Prop :=
  ∀ s t : State, step s = .next t →
    t.params = s.params ∧
    (t.hostInputs = s.hostInputs ∨ ∃ x, s.hostInputs = x :: t.hostInputs) ∧
    ((t.answers = s.answers ∧ t.events = s.events) ∨
      (∃ ans ev, s.answers = ans :: t.answers ∧ t.events = s.events ++ [ev] ∧ t.responses ≠ s.responses)) ∧
    (t.responses = s.responses ∨ ∃ packet, t.responses = s.responses ++ [packet])

/-- R70: the block never reads the event history, nor what it has sent: change both, and the step does the same and
adds the same. -/
def Obligations.HistoryIsNeverRead : Prop :=
  ∀ s t : State, step s = .next t →
    ∃ (dr : List (List Byte)) (de : List Ev), t.responses = s.responses ++ dr ∧ t.events = s.events ++ de ∧
      ∀ (r : List (List Byte)) (e : List Ev),
        step { s with responses := r, events := e } = .next { t with responses := r ++ dr, events := e ++ de }

/-- R22, R34, R47, R51, R54, R56, R81, R185: every step keeps the invariant of the machine: the handle coherent, an
outstanding request legal and on the handle's own address, every event and every response of a legal form. -/
def Obligations.EveryStepKeepsInvariant : Prop :=
  ∀ s t : State, invariant s = true → step s = .next t → invariant t = true

/-- The invariant holds at reset, whatever the open parameters are. -/
def Obligations.ResetMeetsInvariant : Prop := invariant State.reset = true

/-- R200: a step of one block of a system is a step of that block, and leaves every other block as it was. -/
def Obligations.BlocksShareNothing : Prop :=
  ∀ (k : Nat) (sys : List State) (s t : State), sys[k]? = some s → step s = .next t →
    ∃ sys' : List State, stepBlock k sys = .next sys' ∧ sys'[k]? = some t ∧
      sys'.length = sys.length ∧ ∀ j, j ≠ k → sys'[j]? = sys[j]?

/-- R169, R172, R219, R228: polls in a row each make one read and relay its six bytes, in order, for any number of
polls and any snapshots. -/
def Obligations.PollsRelayEverySnapshot : Prop :=
  ∀ (snaps : List Snapshot) (s : State) (a : BusAddr) (inputs : List HostInput) (rest : List TAns),
    s.pending = none → s.hstate = .ready → s.devAddr = some a →
    s.hostInputs = snaps.map (fun _ => .command [0x53#8]) ++ inputs →
    s.answers = snaps.map (fun st => ⟨true, st⟩) ++ rest →
    core.run snaps.length s =
      .next { s with
        hostInputs := inputs, answers := rest,
        events := s.events ++ snaps.map (fun st => .read a s.params.regAddrSentinel 6 true st.bytes),
        responses := s.responses ++ snaps.map (fun st => 0x00#8 :: st.bytes) }

/-- R52, R53, R67, R71: a transaction command whose answer comes in a later step ends in the very state in which it ends
when the answer is there at once: the same event, the same response, whatever command, operands and answer. That an
answer may come in a later step is the model's choice (log 4). -/
def Obligations.LateAnswerEndsAsAtOnce : Prop :=
  ∀ (i : Instr) (s : State) (a : BusAddr) (ans : TAns) (rest : List TAns), i.isTransaction = true →
    i.wellFormed s.params = true → s.hstate = .ready → s.devAddr = some a → s.answers = [] →
    ∃ t u : State, exec i s = .next t ∧ t.pending.isSome = true ∧ step { t with answers := ans :: rest } = .next u ∧
      exec i { s with answers := ans :: rest } = .next u ∧ u.pending = none
end

