-- ==== Sys2Proof/Laws/Decode.lean ====
section
/-! SUPPORT. The opcode map is unambiguous, and each packet format gives back what it was built from. -/

namespace Sys2Proof

/-- Every opcode is in the map (R95). -/
theorem Opcode.mem_all (c : Opcode) : c ∈ Opcode.all := by cases c <;> decide

/-- No two opcodes share a code: no two rows of R95 overlap. -/
theorem Opcode.code_injective : ∀ c d : Opcode, c.code = d.code → c = d := by
  intro c d h
  cases c <;> cases d <;> first | rfl | (exact absurd h (by decide))

/-- The byte of an opcode stands for it. -/
theorem Opcode.ofByte_code (c : Opcode) : Opcode.ofByte c.code = some c := by cases c <;> decide

/-- A byte that stands for an opcode is its code. -/
theorem Opcode.code_of_ofByte {b : Byte} {c : Opcode} (h : Opcode.ofByte b = some c) : c.code = b := by
  simpa using List.find?_some h

/-- A 16-bit magnitude is its high byte above its low byte (R87). -/
theorem magnitude_join (v : Magnitude) : (v.extractLsb' 8 8 ++ v.extractLsb' 0 8 : BitVec 16) = v := by
  apply BitVec.eq_of_getLsbD_eq
  intro i hi
  rw [BitVec.getLsbD_append]
  by_cases h : i < 8
  · simp [h]
  · have h' : i - 8 < 8 := by omega
    have : 8 + (i - 8) = i := by omega
    simp [h, h', this]

/-- A byte is its high nibble above its low nibble. -/
theorem nibbles_join (b : Byte) : (b.extractLsb' 4 4 ++ b.extractLsb' 0 4 : BitVec 8) = b := by
  revert b; decide

/-- The magnitude bytes are two. -/
@[simp] theorem magnitudeBytes_length (v : Magnitude) : (magnitudeBytes v).length = 2 := rfl

/-- A snapshot is six bytes (R35). -/
@[simp] theorem Snapshot.bytes_length (st : Snapshot) : st.bytes.length = 6 := rfl

/-- A settings group is four bytes (R25). -/
@[simp] theorem CfgGroup.bytes_length (g : CfgGroup) : g.bytes.length = 4 := rfl

/-- Thirteen settings are thirteen bytes (R90). -/
@[simp] theorem PerField.toList_length {α : Type} (t : PerField α) : t.toList.length = 13 := rfl

end Sys2Proof
end

