-- ==== Sys2Proof/Laws/Operands.lean ====
section
/-! SUPPORT. The functions on operands in plain arithmetic: what later proofs cite instead of unfolding them. -/

namespace Sys2Proof.Machine

/-! ### Bit fields -/

/-- `Extract` in plain arithmetic: divide by `2^s`, keep `n` bits. -/
theorem extractField_toNat (b : Byte) (s n : Nat) (hs : s ≤ 7) (hn : n ≤ 8 - s) :
    (extractField b s n hs hn).toNat = b.toNat / 2 ^ s % 2 ^ n := by
  have hlt : b.toNat / 2 ^ s % 2 ^ n < 256 :=
    lt_of_le_of_lt ((Nat.mod_le _ _).trans (Nat.div_le_self _ _)) b.isLt
  rw [extractField, Nat.one_shiftLeft, Nat.and_two_pow_sub_one_eq_mod, Nat.shiftRight_eq_div_pow,
    BitVec.toNat_ofNat, Nat.mod_eq_of_lt hlt]

/-- `Extract` bit by bit. -/
theorem extractField_getLsbD (b : Byte) (s n i : Nat) (hs : s ≤ 7) (hn : n ≤ 8 - s) :
    (extractField b s n hs hn).getLsbD i = (decide (i < n) && b.getLsbD (s + i)) := by
  have h := extractField_toNat b s n hs hn
  rw [BitVec.getLsbD, h, Nat.testBit_mod_two_pow, Nat.testBit_div_two_pow, BitVec.getLsbD, Nat.add_comm i s]

/-- One bit of a byte as `Extract` gives it. -/
theorem extractField_bit (b : Byte) (s : Nat) (hs : s ≤ 7) (hn : 1 ≤ 8 - s) :
    extractField b s 1 hs hn = boolByte (b.getLsbD s) := by
  apply BitVec.eq_of_getLsbD_eq
  intro i hi
  rw [extractField_getLsbD]
  rcases Nat.eq_zero_or_pos i with rfl | hpos
  · cases b.getLsbD s <;> simp [boolByte]
  · have : ¬ i < 1 := by omega
    cases h : b.getLsbD s <;> simp [boolByte, this, BitVec.getLsbD_one, Nat.pos_iff_ne_zero.mp hpos]

/-- The whole byte as `Extract` gives it. -/
theorem extractField_whole (b : Byte) (hs : 0 ≤ 7) (hn : 8 ≤ 8 - 0) : extractField b 0 8 hs hn = b := by
  apply BitVec.eq_of_toNat_eq
  rw [extractField_toNat]
  have := b.isLt
  omega

/-- `Place` bit by bit. -/
theorem placeField_getLsbD (v : Byte) (s i : Nat) :
    (placeField v s).getLsbD i = (decide (i < 8) && !decide (i < s) && v.getLsbD (i - s)) := by
  simp [placeField]

/-! ### Thresholds -/

/-- A clamped magnitude lies between its bounds (R120). -/
theorem clampThr_bounds (v : Int) (sleep : Bool) :
    (if sleep then 0 else 8) ≤ clampThr v sleep ∧ clampThr v sleep ≤ 999 := by
  cases sleep <;> simp [clampThr, Config.thrSleepMin, Config.thrKeyMin, Config.thrMax]

/-- The 12-bit magnitude is the clamped value: nothing is lost in narrowing it (R127). -/
theorem clampedMagnitude_toNat (v : Magnitude) (sleep : Bool) :
    ((clampedMagnitude v sleep).toNat : Int) = clampThr v.toInt sleep := by
  have h := clampThr_bounds v.toInt sleep
  have h0 : (0 : Int) ≤ clampThr v.toInt sleep := by cases sleep <;> simp at h <;> omega
  rw [clampedMagnitude, BitVec.toNat_ofInt]
  have : clampThr v.toInt sleep % ((2 ^ 12 : Nat) : Int) = clampThr v.toInt sleep :=
    Int.emod_eq_of_lt h0 (by omega)
  omega

/-- `B1` is the low eight bits of the magnitude (R121). -/
theorem thrData_fst_toNat (c : BitVec 12) : (thrData c).1.toNat = c.toNat % 256 := by
  simp only [thrData, BitVec.toNat_append, BitVec.extractLsb'_toNat, Nat.shiftRight_eq_div_pow]
  rw [← Nat.shiftLeft_add_eq_or_of_lt (by omega), Nat.shiftLeft_eq]
  omega

/-- `B2` is the high nibble over zeros (R121). -/
theorem thrData_snd_toNat (c : BitVec 12) : (thrData c).2.toNat = c.toNat / 256 * 16 := by
  have := c.isLt
  simp only [thrData, BitVec.toNat_append, BitVec.extractLsb'_toNat, Nat.shiftRight_eq_div_pow]
  rw [← Nat.shiftLeft_add_eq_or_of_lt (by decide), Nat.shiftLeft_eq]
  simp
  omega

/-- Reconstruction in plain arithmetic (R123). -/
theorem thrValue_toNat (b1 b2 : Byte) : (thrValue b1 b2).toNat = b1.toNat + b2.toNat / 16 * 256 := by
  have h1 := b1.isLt
  have h2 := b2.isLt
  simp only [thrValue, BitVec.toNat_or, BitVec.toNat_shiftLeft, BitVec.truncate_eq_setWidth,
    BitVec.toNat_setWidth, BitVec.toNat_ushiftRight, Nat.shiftRight_eq_div_pow]
  rw [Nat.or_comm, Nat.mod_eq_of_lt (a := b2.toNat / 2 ^ 4) (by omega), Nat.mod_eq_of_lt (a := b1.toNat) (by omega),
    Nat.mod_eq_of_lt (by rw [Nat.shiftLeft_eq]; omega), ← Nat.shiftLeft_add_eq_or_of_lt (by omega), Nat.shiftLeft_eq]
  omega

/-- The two data bytes of a clamped magnitude in plain arithmetic (R120, R121). -/
theorem thrData_clamped (v : Magnitude) (sleep : Bool) :
    thrData (clampedMagnitude v sleep)
      = (BitVec.ofNat 8 ((clampThr v.toInt sleep).toNat % 256), BitVec.ofNat 8 ((clampThr v.toInt sleep).toNat / 256 * 16)) := by
  have hc : (clampThr v.toInt sleep).toNat = (clampedMagnitude v sleep).toNat := by
    rw [← clampedMagnitude_toNat]; simp
  have hlt := (clampedMagnitude v sleep).isLt
  rw [hc]
  refine Prod.ext (BitVec.eq_of_toNat_eq ?_) (BitVec.eq_of_toNat_eq ?_)
  · rw [thrData_fst_toNat, BitVec.toNat_ofNat]; omega
  · rw [thrData_snd_toNat, BitVec.toNat_ofNat]; omega

/-- The index byte of a target index (R122). -/
theorem thrIndex_eq (k : Byte) : thrIndex k = BitVec.ofNat 8 (0xC0 + k.toNat) := by
  apply BitVec.eq_of_toNat_eq
  simp [thrIndex, Config.thrIndexBase]

/-- The operand check of `DEC_THR` in plain arithmetic (R126). -/
theorem decThrLegal_eq (ib : Byte) (b2l : BitVec 4) :
    decThrLegal ib b2l
      = decide ((0xC0 ≤ ib.toNat ∧ ib.toNat ≤ 0xC9 ∨ ib.toNat = 0xD0) ∧ b2l = 0#4) := by
  have hs : ib = Config.thrIndexSleep ↔ ib.toNat = 0xD0 :=
    ⟨fun h => h ▸ rfl, fun h => BitVec.eq_of_toNat_eq (by rw [h]; rfl)⟩
  simp only [decThrLegal, indexByteLegal, hs, BitVec.le_def]
  by_cases h : b2l = 0#4 <;> simp [h]

/-- The bytes of the magnitude that `DEC_THR` answers (R126). -/
theorem thrValue_bytes (b1 : Byte) (h l : BitVec 4) :
    (thrValue b1 (h ++ l)).extractLsb' 0 8 = b1 ∧
    (thrValue b1 (h ++ l)).extractLsb' 8 8 = BitVec.ofNat 8 h.toNat := by
  have hv := thrValue_toNat b1 (h ++ l)
  have hb : (h ++ l : BitVec 8).toNat / 16 = h.toNat := by
    have := l.isLt
    rw [BitVec.toNat_append, ← Nat.shiftLeft_add_eq_or_of_lt l.isLt, Nat.shiftLeft_eq]
    omega
  have h1 := b1.isLt
  have h2 := h.isLt
  rw [hb] at hv
  constructor <;> apply BitVec.eq_of_toNat_eq <;>
    simp only [BitVec.extractLsb'_toNat, hv, Nat.shiftRight_eq_div_pow, BitVec.toNat_ofNat] <;> omega

/-- The reserved bits of `INIT` are 0 (R99). -/
theorem initLegal_eq (rsv1 : BitVec 1) (rsv2 : BitVec 6) :
    initLegal rsv1 rsv2 = decide (rsv1 = 0#1 ∧ rsv2 = 0#6) := by
  by_cases h1 : rsv1 = 0#1 <;> by_cases h2 : rsv2 = 0#6 <;> simp [initLegal, h1, h2]

/-! ### Index operands -/

/-- Slider i is named by the operand i (R153). -/
theorem sliderOf_eq_some {ix : Byte} {i : Fin 3} (h : ix.toNat = i.val + 1) : sliderOf ix = some i := by
  have hr : 1 ≤ ix.toNat ∧ ix.toNat ≤ 3 := by omega
  simp only [sliderOf, hr, and_self, dite_true, Option.some.injEq]
  apply Fin.ext
  simp [h]

/-- Any other operand names no slider (R153). -/
theorem sliderOf_eq_none {ix : Byte} (h : ix.toNat < 1 ∨ 3 < ix.toNat) : sliderOf ix = none := by
  have hr : ¬ (1 ≤ ix.toNat ∧ ix.toNat ≤ 3) := by omega
  simp only [sliderOf, hr, dite_false]

/-- Key k is named by the operand k (R154). -/
theorem keyOf_eq_some {ix : Byte} {k : Fin 9} (h : ix.toNat = k.val + 1) : keyOf ix = some k := by
  have hr : 1 ≤ ix.toNat ∧ ix.toNat ≤ 9 := by omega
  simp only [keyOf, hr, and_self, dite_true, Option.some.injEq]
  apply Fin.ext
  simp [h]

/-- Any other operand names no key (R154). -/
theorem keyOf_eq_none {ix : Byte} (h : ix.toNat < 1 ∨ 9 < ix.toNat) : keyOf ix = none := by
  have hr : ¬ (1 ≤ ix.toNat ∧ ix.toNat ≤ 9) := by omega
  simp only [keyOf, hr, dite_false]

/-- An index operand names slider 1 to 3. -/
theorem sliderOf_isSome (ix : Byte) : (sliderOf ix).isSome = (decide (1 ≤ ix.toNat) && decide (ix.toNat ≤ 3)) := by
  by_cases h : 1 ≤ ix.toNat ∧ ix.toNat ≤ 3
  · simp [sliderOf, h]
  · simp [sliderOf, h]; omega

/-- An index operand names key 1 to 9. -/
theorem keyOf_isSome (ix : Byte) : (keyOf ix).isSome = (decide (1 ≤ ix.toNat) && decide (ix.toNat ≤ 9)) := by
  by_cases h : 1 ≤ ix.toNat ∧ ix.toNat ≤ 9
  · simp [keyOf, h]
  · simp [keyOf, h]; omega

/-! ### The settings group -/

/-- Every field is in the list of fields (R26). -/
theorem Field.mem_all (f : Field) : f ∈ Field.all := by cases f <;> decide

/-- A fold of OR-ed bytes, bit by bit. -/
theorem foldl_or_getLsbD {α : Type} (c : α → Bool) (v : α → Byte) (l : List α) (acc : Byte) (b : Nat) :
    (l.foldl (fun a i => if c i then a ||| v i else a) acc).getLsbD b
      = (acc.getLsbD b || l.any fun i => c i && (v i).getLsbD b) := by
  induction l generalizing acc with
  | nil => simp
  | cons i l ih =>
    rw [List.foldl_cons, ih, List.any_cons]
    cases h : c i <;> simp [Bool.or_assoc]

/-- A bit of a packed byte is set exactly when some field of that byte sets it (R135). -/
theorem packByte_getLsbD (p : Params) (f : Settings) (j : CfgByte) (b : Nat) :
    (packByte p f j).getLsbD b
      = Field.all.any fun i => decide ((p.cfgField.get i).byte = j)
          && (placeField (f.get i) (p.cfgField.get i).start).getLsbD b := by
  have h := foldl_or_getLsbD (fun i => decide ((p.cfgField.get i).byte = j))
    (fun i => placeField (f.get i) (p.cfgField.get i).start) Field.all 0#8 b
  simpa [packByte] using h

/-- The byte of a packed group under its name. -/
theorem packCfg_get (p : Params) (f : Settings) (j : CfgByte) : (packCfg p f).get j = packByte p f j := by
  cases j <;> rfl

/-- Two tables that agree on every field are equal. -/
theorem perField_ext {α : Type} {a b : PerField α} (h : ∀ i, a.get i = b.get i) : a = b := by
  cases a
  cases b
  simp only [PerField.mk.injEq]
  exact ⟨h .mode, h .thresholdClass, h .keyOutputMode, h .autoAdjust, h .powerSave, h .dynamicThreshold,
    h .autoResetTime, h .keyCount, h .keyAckTime, h .slide1Size, h .slide2Size, h .slide3Size, h .keyOffCount⟩

/-- Settings are valid when every one is a member of its enumeration (R136). -/
theorem validCfg_iff (p : Params) (f : Settings) : validCfg p f = true ↔ ∀ i, f.get i ∈ p.cfgLegal.get i := by
  refine ⟨fun h i => ?_, fun h => by simp [validCfg, h]⟩
  simpa using List.all_eq_true.mp h i (Field.mem_all i)

/-- A valid setting is a member of its enumeration (R136). -/
theorem validCfg_mem {p : Params} {f : Settings} (h : validCfg p f = true) (i : Field) :
    f.get i ∈ p.cfgLegal.get i := by
  simpa using List.all_eq_true.mp h i (Field.mem_all i)

/-- What admissible parameters say of one field (R28, R29). -/
theorem admissible_field {p : Params} (h : p.admissible = true) (i : Field) :
    (p.cfgField.get i).byte = i.home ∧ 1 ≤ (p.cfgField.get i).width
      ∧ (p.cfgField.get i).start + (p.cfgField.get i).width ≤ 8
      ∧ (∀ v ∈ p.cfgLegal.get i, v.toNat < 2 ^ (p.cfgField.get i).width)
      ∧ p.cfgDefault.get i ∈ p.cfgLegal.get i := by
  simp only [Params.admissible, Bool.and_eq_true] at h
  have hf := List.all_eq_true.mp h.1.1.1.1.1.1.1 i (Field.mem_all i)
  simp only [Params.fieldOk, Bool.and_eq_true, beq_iff_eq, decide_eq_true_eq, List.all_eq_true,
    List.contains_eq_mem] at hf
  exact ⟨hf.1.1.1.1, hf.1.1.1.2, hf.1.1.2, hf.1.2, hf.2⟩

/-- Two fields of one byte share no bit (R28 c). -/
theorem admissible_disjoint {p : Params} (h : p.admissible = true) {i j : Field} (hij : i ≠ j)
    (hb : (p.cfgField.get i).byte = (p.cfgField.get j).byte) :
    (p.cfgField.get i).start + (p.cfgField.get i).width ≤ (p.cfgField.get j).start
      ∨ (p.cfgField.get j).start + (p.cfgField.get j).width ≤ (p.cfgField.get i).start := by
  simp only [Params.admissible, Bool.and_eq_true] at h
  have hf := List.all_eq_true.mp (List.all_eq_true.mp h.1.1.1.1.2 i (Field.mem_all i)) j (Field.mem_all j)
  simpa [FieldRange.disjoint, hij, hb] using hf

/-- The ranges the source fixes (R27). -/
theorem admissible_slides {p : Params} (h : p.admissible = true) :
    p.cfgField.slide1Size = ⟨.cfg3, 0, 4⟩ ∧ p.cfgField.slide2Size = ⟨.cfg3, 4, 4⟩ := by
  simp only [Params.admissible, Bool.and_eq_true, beq_iff_eq] at h
  exact ⟨h.1.1.1.1.1.1.2, h.1.1.1.1.1.2⟩

/-- A valid setting fits its range (R29, R136). -/
theorem validCfg_fits {p : Params} {f : Settings} (ha : p.admissible = true) (h : validCfg p f = true) (i : Field) :
    (f.get i).toNat < 2 ^ (p.cfgField.get i).width :=
  (admissible_field ha i).2.2.2.1 _ (validCfg_mem h i)

end Sys2Proof.Machine
end

