-- ==== Sys2Proof/Laws/State.lean ====
section
/-! SUPPORT. What each update of the state does to each field, so that no later proof unfolds a record update. -/

namespace Sys2Proof.Machine.State

variable (s : State)

@[simp] theorem setHState_hstate (h : HState) : (s.setHState h).hstate = h := rfl
@[simp] theorem setHState_devAddr (h : HState) : (s.setHState h).devAddr = s.devAddr := rfl
@[simp] theorem setHState_pending (h : HState) : (s.setHState h).pending = s.pending := rfl
@[simp] theorem setHState_hostInputs (h : HState) : (s.setHState h).hostInputs = s.hostInputs := rfl
@[simp] theorem setHState_answers (h : HState) : (s.setHState h).answers = s.answers := rfl
@[simp] theorem setHState_responses (h : HState) : (s.setHState h).responses = s.responses := rfl
@[simp] theorem setHState_events (h : HState) : (s.setHState h).events = s.events := rfl
@[simp] theorem setHState_params (h : HState) : (s.setHState h).params = s.params := rfl

@[simp] theorem setDevAddr_hstate (a : Option BusAddr) : (s.setDevAddr a).hstate = s.hstate := rfl
@[simp] theorem setDevAddr_devAddr (a : Option BusAddr) : (s.setDevAddr a).devAddr = a := rfl
@[simp] theorem setDevAddr_pending (a : Option BusAddr) : (s.setDevAddr a).pending = s.pending := rfl
@[simp] theorem setDevAddr_hostInputs (a : Option BusAddr) : (s.setDevAddr a).hostInputs = s.hostInputs := rfl
@[simp] theorem setDevAddr_answers (a : Option BusAddr) : (s.setDevAddr a).answers = s.answers := rfl
@[simp] theorem setDevAddr_responses (a : Option BusAddr) : (s.setDevAddr a).responses = s.responses := rfl
@[simp] theorem setDevAddr_events (a : Option BusAddr) : (s.setDevAddr a).events = s.events := rfl
@[simp] theorem setDevAddr_params (a : Option BusAddr) : (s.setDevAddr a).params = s.params := rfl

@[simp] theorem setPending_hstate (r : Option TReq) : (s.setPending r).hstate = s.hstate := rfl
@[simp] theorem setPending_devAddr (r : Option TReq) : (s.setPending r).devAddr = s.devAddr := rfl
@[simp] theorem setPending_pending (r : Option TReq) : (s.setPending r).pending = r := rfl
@[simp] theorem setPending_hostInputs (r : Option TReq) : (s.setPending r).hostInputs = s.hostInputs := rfl
@[simp] theorem setPending_answers (r : Option TReq) : (s.setPending r).answers = s.answers := rfl
@[simp] theorem setPending_responses (r : Option TReq) : (s.setPending r).responses = s.responses := rfl
@[simp] theorem setPending_events (r : Option TReq) : (s.setPending r).events = s.events := rfl
@[simp] theorem setPending_params (r : Option TReq) : (s.setPending r).params = s.params := rfl

@[simp] theorem setHostInputs_hstate (l : List HostInput) : (s.setHostInputs l).hstate = s.hstate := rfl
@[simp] theorem setHostInputs_devAddr (l : List HostInput) : (s.setHostInputs l).devAddr = s.devAddr := rfl
@[simp] theorem setHostInputs_pending (l : List HostInput) : (s.setHostInputs l).pending = s.pending := rfl
@[simp] theorem setHostInputs_hostInputs (l : List HostInput) : (s.setHostInputs l).hostInputs = l := rfl
@[simp] theorem setHostInputs_answers (l : List HostInput) : (s.setHostInputs l).answers = s.answers := rfl
@[simp] theorem setHostInputs_responses (l : List HostInput) : (s.setHostInputs l).responses = s.responses := rfl
@[simp] theorem setHostInputs_events (l : List HostInput) : (s.setHostInputs l).events = s.events := rfl
@[simp] theorem setHostInputs_params (l : List HostInput) : (s.setHostInputs l).params = s.params := rfl

@[simp] theorem setAnswers_hstate (l : List TAns) : (s.setAnswers l).hstate = s.hstate := rfl
@[simp] theorem setAnswers_devAddr (l : List TAns) : (s.setAnswers l).devAddr = s.devAddr := rfl
@[simp] theorem setAnswers_pending (l : List TAns) : (s.setAnswers l).pending = s.pending := rfl
@[simp] theorem setAnswers_hostInputs (l : List TAns) : (s.setAnswers l).hostInputs = s.hostInputs := rfl
@[simp] theorem setAnswers_answers (l : List TAns) : (s.setAnswers l).answers = l := rfl
@[simp] theorem setAnswers_responses (l : List TAns) : (s.setAnswers l).responses = s.responses := rfl
@[simp] theorem setAnswers_events (l : List TAns) : (s.setAnswers l).events = s.events := rfl
@[simp] theorem setAnswers_params (l : List TAns) : (s.setAnswers l).params = s.params := rfl

@[simp] theorem send_hstate (packet : List Byte) : (s.send packet).hstate = s.hstate := rfl
@[simp] theorem send_devAddr (packet : List Byte) : (s.send packet).devAddr = s.devAddr := rfl
@[simp] theorem send_pending (packet : List Byte) : (s.send packet).pending = s.pending := rfl
@[simp] theorem send_hostInputs (packet : List Byte) : (s.send packet).hostInputs = s.hostInputs := rfl
@[simp] theorem send_answers (packet : List Byte) : (s.send packet).answers = s.answers := rfl
@[simp] theorem send_responses (packet : List Byte) : (s.send packet).responses = s.responses ++ [packet] := rfl
@[simp] theorem send_events (packet : List Byte) : (s.send packet).events = s.events := rfl
@[simp] theorem send_params (packet : List Byte) : (s.send packet).params = s.params := rfl

@[simp] theorem record_hstate (e : Ev) : (s.record e).hstate = s.hstate := rfl
@[simp] theorem record_devAddr (e : Ev) : (s.record e).devAddr = s.devAddr := rfl
@[simp] theorem record_pending (e : Ev) : (s.record e).pending = s.pending := rfl
@[simp] theorem record_hostInputs (e : Ev) : (s.record e).hostInputs = s.hostInputs := rfl
@[simp] theorem record_answers (e : Ev) : (s.record e).answers = s.answers := rfl
@[simp] theorem record_responses (e : Ev) : (s.record e).responses = s.responses := rfl
@[simp] theorem record_events (e : Ev) : (s.record e).events = s.events ++ [e] := rfl
@[simp] theorem record_params (e : Ev) : (s.record e).params = s.params := rfl

/-! ### The composed operations -/

@[simp] theorem respondOk_eq_send (payload : List Byte) : s.respondOk payload = s.send (0x00#8 :: payload) := rfl
@[simp] theorem raise_eq_send (e : Status) : s.raise e = s.send [e.code] := rfl
@[simp] theorem answerIllegal_eq_send : s.answerIllegal = s.send [0x04#8] := rfl
@[simp] theorem takeReset_eq : s.takeReset = (s.setHState .uninit).setDevAddr none := rfl

end Sys2Proof.Machine.State
end

