-- ==== Sys2Proof/Laws/Ops.lean ====
section
/-! SUPPORT. What each shared operation on the state can do, said once. -/

namespace Sys2Proof.Machine

open Sys2Proof.Safety

/-- The code of a status is a known one (R185). -/
theorem Status.code_toNat_le (e : Status) : e.code.toNat ≤ 5 := by cases e <;> decide

/-- A one-byte response is a legal packet. -/
theorem responseLegal_code (e : Status) : responseLegal [e.code] = true := by cases e <;> decide

/-- An `OK` response of at most six payload bytes is a legal packet. -/
theorem responseLegal_ok {payload : List Byte} (h : payload.length ≤ 6) :
    responseLegal (0x00#8 :: payload) = true := by
  simp [responseLegal, h]

namespace State

/-- The event an answered request leaves (R70). -/
def eventOf (ans : TAns) : TReq → Ev
  | .wr dev reg n data => .write dev reg n data ans.ok
  | .rd dev reg n => .read dev reg n ans.ok (if ans.ok then ans.data.bytes else [])

/-- The response an answered request leaves (R166 to R169). -/
def packetOf (ans : TAns) : TReq → List Byte
  | .wr _ _ _ _ => if ans.ok then [0x00#8] else [0x02#8]
  | .rd _ _ _ => if ans.ok then 0x00#8 :: ans.data.bytes else [0x02#8]

/-- An answered request leaves one event and one response, and changes nothing else. -/
theorem complete_eq (req : TReq) (ans : TAns) (s : State) :
    s.complete req ans = (s.record (eventOf ans req)).send (packetOf ans req) := by
  cases req <;> cases h : ans.ok <;> simp [complete, eventOf, packetOf, h, Status.code]

/-- An outstanding request meets the next answer. -/
theorem settle_answered {s : State} {req : TReq} {ans : TAns} {rest : List TAns}
    (hp : s.pending = some req) (ha : s.answers = ans :: rest) :
    s.settle = ((((s.setPending none).setAnswers rest).record (eventOf ans req)).send (packetOf ans req)) := by
  simp [settle, hp, ha, complete_eq]

/-- With no answer the block waits, unchanged (R71, R230). -/
theorem settle_waiting {s : State} (ha : s.answers = []) : s.settle = s := by
  cases hp : s.pending <;> simp [settle, hp, ha]

/-- Settling a request touches neither the handle nor the parameters nor the host's inputs. -/
theorem settle_frame (s : State) :
    s.settle.hstate = s.hstate ∧ s.settle.devAddr = s.devAddr ∧ s.settle.params = s.params
      ∧ s.settle.hostInputs = s.hostInputs := by
  cases ha : s.answers with
  | nil => rw [settle_waiting ha]; simp
  | cons ans rest =>
    cases hp : s.pending with
    | none => simp [settle, hp]
    | some req => rw [settle_answered hp ha]; simp

/-- Neither does making one. -/
theorem transact_frame (req : TReq) (s : State) :
    (s.transact req).hstate = s.hstate ∧ (s.transact req).devAddr = s.devAddr
      ∧ (s.transact req).params = s.params ∧ (s.transact req).hostInputs = s.hostInputs :=
  settle_frame (s.setPending (some req))

/-- A transport request that is answered at once: one event, one response, one answer used, nothing else. -/
theorem transact_answered (req : TReq) {s : State} {ans : TAns} {rest : List TAns}
    (ha : s.answers = ans :: rest) :
    s.transact req =
      { s with pending := none, answers := rest, events := s.events ++ [eventOf ans req],
               responses := s.responses ++ [packetOf ans req] } := by
  rw [transact, settle_answered (req := req) (ans := ans) (rest := rest) rfl (by simp [ha])]
  rfl

/-- A transport request that is not answered yet: the block waits on it. -/
theorem transact_waiting (req : TReq) {s : State} (ha : s.answers = []) :
    s.transact req = { s with pending := some req } := by
  rw [transact, settle_waiting (by simp [ha])]
  rfl

/-- An answer that comes after the block began to wait settles the request as one that is there at once. -/
theorem settle_late (req : TReq) {s : State} (l : List TAns) (ha : s.answers = []) :
    ({ s.transact req with answers := l } : State).settle = ({ s with answers := l } : State).transact req := by
  rw [transact_waiting req ha]
  rfl

/-- The handle check passes. -/
theorem withHandle_ready {k : State → State} {s : State} (h : s.hstate = .ready) :
    s.withHandle k = k s := by simp [withHandle, h]

/-- The handle check fails: `NoHandle` (R170, R191). -/
theorem withHandle_not_ready {k : State → State} {s : State} (h : s.hstate ≠ .ready) :
    s.withHandle k = s.send [0x05#8] := by simp [withHandle, h, Status.code]

/-- The response an answered request leaves is a legal packet. -/
theorem packetOf_legal (ans : TAns) (req : TReq) : responseLegal (packetOf ans req) = true := by
  cases req <;> cases h : ans.ok <;> simp [packetOf, h, responseLegal, Snapshot.bytes]

/-- The event a legal request leaves is a legal event. -/
theorem eventOf_legal {p : Params} {req : TReq} (ans : TAns) (h : requestLegal p req = true) :
    eventLegal p (eventOf ans req) = true := by
  cases req <;> cases ho : ans.ok <;> simp_all [eventOf, eventLegal, Snapshot.bytes]

/-- The bus address of a request is `DEV_ADDR` where that has a value. -/
theorem busAddr_of_some {s : State} {a : BusAddr} (h : s.devAddr = some a) : s.busAddr = a := by
  simp [busAddr, h]

end State

end Sys2Proof.Machine
end

