-- ==== Sys2Proof/Laws/Exec.lean ====
section
/-! SUPPORT. What a command can do and what a step can do, said once. -/

namespace Sys2Proof.Machine

open Sys2Proof.Safety

/-! ### The groups a threshold command sends -/

/-- The index byte of a legal target index is legal (R122). -/
theorem indexByteLegal_thrIndex : ∀ k : Byte, keyTargetLegal k = true →
    indexByteLegal (thrIndex k) = true ∧ thrIndex k ≠ Config.thrIndexSleep := by decide

/-- Reconstruction undoes placement (R123). -/
theorem thrValue_thrData (c : BitVec 12) : (thrValue (thrData c).1 (thrData c).2).toNat = c.toNat := by
  rw [thrValue_toNat, thrData_fst_toNat, thrData_snd_toNat]
  omega

/-- The low nibble of `B2` is zero (R121). -/
theorem thrData_snd_low (c : BitVec 12) : (thrData c).2.extractLsb' 0 4 = 0#4 := by
  apply BitVec.eq_of_toNat_eq
  rw [BitVec.extractLsb'_toNat, thrData_snd_toNat, Nat.shiftRight_zero]
  simp

/-- A per-key entry is a threshold group (R33, R34). -/
theorem writeGroup_thrKeyEntry {k : Byte} (v : Magnitude) (hk : keyTargetLegal k = true) :
    writeGroup (thrKeyEntry k v) = true := by
  have hi := indexByteLegal_thrIndex k hk
  have hb := clampThr_bounds v.toInt false
  have hc := clampedMagnitude_toNat v false
  simp only [Bool.false_eq_true, if_false] at hb
  have h8 : 8 ≤ (clampedMagnitude v false).toNat ∧ (clampedMagnitude v false).toNat ≤ 999 := by omega
  simp [writeGroup, thrKeyEntry, thresholdGroup, hi.1, thrData_snd_low, thrValue_thrData, h8]

/-- A sleep entry is a threshold group (R33, R34). -/
theorem writeGroup_thrSleepEntry (v : Magnitude) : writeGroup (thrSleepEntry v) = true := by
  have hb := clampThr_bounds v.toInt true
  have hc := clampedMagnitude_toNat v true
  have h9 : (clampedMagnitude v true).toNat ≤ 999 := by omega
  have hx : indexByteLegal Config.thrIndexSleep = true := by decide
  simp [writeGroup, thrSleepEntry, thresholdGroup, hx, thrData_snd_low, thrValue_thrData, h9]

/-! ### Commands -/

/-- The five things a command can do to a state. -/
inductive Effect (i : Instr) (s : State) : State → Prop where
  /-- One `OK` response and nothing else: every pure command (R171). -/
  | answers (payload : List Byte) (h : payload.length ≤ 6) : Effect i s (s.send (0x00#8 :: payload))
  /-- A check fails before any effect: one error byte and nothing else (R197). -/
  | refuses (e : Byte) (h : e = 0x03#8 ∨ e = 0x05#8) : Effect i s (s.send [e])
  /-- `INIT` with a null capability (R186). -/
  | initFails (hi : i.opcode = .init) (hs : s.hstate = .uninit) :
      Effect i s ((s.setHState .failed).send [0x01#8])
  /-- `INIT` with both capabilities (R165). -/
  | initSucceeds (a : BusAddr) (hi : i = .init 0#1 a 0#6 true true) (hs : s.hstate = .uninit) :
      Effect i s (((s.setDevAddr (some a)).setHState .ready).send [0x00#8])
  /-- A transaction command past its checks: one legal request on the handle's address (R55). -/
  | transacts (req : TReq) (hi : i.isTransaction = true) (hs : s.hstate = .ready)
      (hl : requestLegal s.params req = true) (hd : requestDev req = s.busAddr) : Effect i s (s.transact req)

/-- The check of the handle, then a legal request. -/
theorem Effect.of_withHandle {i : Instr} {s : State} {k : State → State} {req : TReq} (hk : k s = s.transact req)
    (hi : i.isTransaction = true) (hl : requestLegal s.params req = true) (hd : requestDev req = s.busAddr) :
    Effect i s (s.withHandle k) := by
  by_cases h : s.hstate = .ready
  · rw [State.withHandle_ready h, hk]; exact .transacts req hi h hl hd
  · rw [State.withHandle_not_ready h]; exact .refuses _ (.inr rfl)

/-- Every command answers a next state. -/
theorem exec_answers (i : Instr) (s : State) : ∃ t, exec i s = .next t := by cases i <;> exact ⟨_, rfl⟩

/-- What a command does, whatever the state (R81, R171, R186, R196, R55). -/
theorem exec_effect {i : Instr} {s t : State} (h : exec i s = .next t) : Effect i s t := by
  have refusal : Effect i s (s.send [0x03#8]) := .refuses _ (.inl rfl)
  cases i with
  | init r1 a r2 tw tr =>
    simp only [exec, execInit, Host.Outcome.next.injEq] at h
    subst h
    split
    · exact refusal
    · split
      · exact refusal
      · rename_i hl hs
        have hu : s.hstate = .uninit := by simpa using hs
        simp only [initLegal, Bool.not_eq_true, Bool.not_eq_false', Bool.and_eq_true, beq_iff_eq] at hl
        split
        · exact .initFails rfl hu
        · rename_i hc
          simp only [not_or, Bool.not_eq_false] at hc
          obtain ⟨rfl, rfl⟩ := hc
          obtain ⟨rfl, rfl⟩ := hl
          exact .initSucceeds a rfl hu
  | extract b sb n =>
    simp only [exec, execExtract, Host.Outcome.next.injEq] at h
    subst h
    split
    · exact .answers _ (by simp)
    · exact refusal
  | encThrKey k v =>
    simp only [exec, execEncThrKey, Host.Outcome.next.injEq] at h
    subst h
    split
    · exact .answers _ (by simp [thrKeyEntry])
    · exact refusal
  | encThrSlp v =>
    simp only [exec, execEncThrSlp, Host.Outcome.next.injEq] at h
    subst h
    exact .answers _ (by simp [thrSleepEntry])
  | decThr ib b1 b2h b2l =>
    simp only [exec, execDecThr, Host.Outcome.next.injEq] at h
    subst h
    split
    · exact .answers _ (by simp)
    · exact refusal
  | packCfg f =>
    simp only [exec, execPackCfg, Host.Outcome.next.injEq] at h
    subst h
    split
    · exact .answers _ (by simp)
    · exact refusal
  | decCorr st =>
    simp only [exec, execDecCorr, Host.Outcome.next.injEq] at h
    subst h
    exact .answers _ (by simp)
  | decWrf st =>
    simp only [exec, execDecWrf, Host.Outcome.next.injEq] at h
    subst h
    exact .answers _ (by simp)
  | decSlt st ix =>
    simp only [exec, execDecSlt, Host.Outcome.next.injEq] at h
    subst h
    split
    · exact .answers _ (by simp)
    · exact refusal
  | decKey st ix =>
    simp only [exec, execDecKey, Host.Outcome.next.injEq] at h
    subst h
    split
    · exact .answers _ (by simp)
    · exact refusal
  | decPos st ix =>
    simp only [exec, execDecPos, Host.Outcome.next.injEq] at h
    subst h
    split
    · exact .answers _ (by simp)
    · exact refusal
  | wrCfg f =>
    simp only [exec, execWrCfg, Host.Outcome.next.injEq] at h
    subst h
    split
    · have hl : requestLegal s.params (.wr s.busAddr s.params.regAddrSentinel Config.cfgLen
          (packCfg s.params f).bytes) = true := by
        simp [requestLegal, Config.cfgLen, writeGroup, CfgGroup.bytes]
      exact .of_withHandle rfl rfl hl rfl
    · exact refusal
  | wrThrKey k v =>
    simp only [exec, execWrThrKey, Host.Outcome.next.injEq] at h
    subst h
    split
    · rename_i hk
      have hl : requestLegal s.params (.wr s.busAddr s.params.regAddrSentinel Config.thrLen
          (thrKeyEntry k v)) = true := by
        simp [requestLegal, Config.thrLen, writeGroup_thrKeyEntry v hk]
        rfl
      exact .of_withHandle rfl rfl hl rfl
    · exact refusal
  | wrThrSlp v =>
    simp only [exec, execWrThrSlp, Host.Outcome.next.injEq] at h
    subst h
    have hl : requestLegal s.params (.wr s.busAddr s.params.regAddrSentinel Config.thrLen
        (thrSleepEntry v)) = true := by
      simp [requestLegal, Config.thrLen, writeGroup_thrSleepEntry v]
      rfl
    exact .of_withHandle rfl rfl hl rfl
  | rdStatus =>
    simp only [exec, execRdStatus, Host.Outcome.next.injEq] at h
    subst h
    have hl : requestLegal s.params (.rd s.busAddr s.params.regAddrSentinel Config.statusLen) = true := by
      simp [requestLegal, Config.statusLen]
    exact .of_withHandle rfl rfl hl rfl

/-! ### Steps -/

/-- The five things a step can do (R19, R71, R190, R193, R216). -/
inductive StepEffect (s : State) : State → Prop where
  /-- An outstanding request: it meets the next answer, or the block waits. -/
  | settles (req : TReq) (h : s.pending = some req) : StepEffect s s.settle
  /-- Nothing is presented. -/
  | idles (hp : s.pending = none) (h : s.hostInputs = []) : StepEffect s s
  /-- Reset. -/
  | resets (rest : List HostInput) (hp : s.pending = none) (h : s.hostInputs = .rst :: rest) :
      StepEffect s ((s.setHostInputs rest).setHState .uninit |>.setDevAddr none)
  /-- A packet that is no command. -/
  | rejects (packet : List Byte) (rest : List HostInput) (e : DecodeError) (hp : s.pending = none)
      (h : s.hostInputs = .command packet :: rest) (hd : decode packet = .error e) :
      StepEffect s ((s.setHostInputs rest).send [0x04#8])
  /-- A command. -/
  | runs (packet : List Byte) (rest : List HostInput) (i : Instr) (t : State) (hp : s.pending = none)
      (h : s.hostInputs = .command packet :: rest) (hd : decode packet = .ok i)
      (he : Effect i (s.setHostInputs rest) t) : StepEffect s t

/-- What a step does, whatever the state. -/
theorem step_effect {s t : State} (h : step s = .next t) : StepEffect s t := by
  unfold step at h
  cases hp : s.pending with
  | some req =>
    simp only [hp, Host.Outcome.next.injEq] at h
    exact h ▸ .settles req hp
  | none =>
    simp only [hp] at h
    cases hi : s.hostInputs with
    | nil =>
      simp only [hi, Host.Outcome.next.injEq] at h
      exact h ▸ .idles hp hi
    | cons inp rest =>
      cases inp with
      | rst =>
        simp only [hi, Host.Outcome.next.injEq] at h
        exact h ▸ .resets rest hp hi
      | command packet =>
        cases hd : decode packet with
        | error e =>
          simp only [hi, hd, Host.Outcome.next.injEq] at h
          exact h ▸ .rejects packet rest e hp hi hd
        | ok i =>
          simp only [hi, hd] at h
          exact .runs packet rest i t hp hi hd (exec_effect h)

/-- Every step answers a next state. -/
theorem step_answers (s : State) : ∃ t, step s = .next t := by
  unfold step
  cases s.pending with
  | some req => exact ⟨_, rfl⟩
  | none =>
    cases s.hostInputs with
    | nil => exact ⟨_, rfl⟩
    | cons inp rest =>
      cases inp with
      | rst => exact ⟨_, rfl⟩
      | command packet =>
        cases hd : decode packet with
        | error e => exact ⟨_, by simp [hd]; rfl⟩
        | ok i => simpa [hd] using exec_answers i (s.setHostInputs rest)

end Sys2Proof.Machine
end

