-- ==== Sys2Proof/Laws/PerInstr.lean ====
section
/-! SUPPORT. Statements about the syntax of every command, one lemma for each constructor. -/

namespace Sys2Proof.Laws.EncodeLength

/-- The packet of a command has the one length of its opcode, `1 + N(op)` (R80, R101). -/
def Statement (i : Instr) : Prop := (encode i).length = i.opcode.packetLength

theorem init (rsv1 : BitVec 1) (a : BusAddr) (rsv2 : BitVec 6) (tw tr : Bool) :
    Statement (.init rsv1 a rsv2 tw tr) := rfl
theorem extract (b s n : Byte) : Statement (.extract b s n) := rfl
theorem encThrKey (k : Byte) (v : Magnitude) : Statement (.encThrKey k v) := rfl
theorem encThrSlp (v : Magnitude) : Statement (.encThrSlp v) := rfl
theorem decThr (ib b1 : Byte) (b2h b2l : BitVec 4) : Statement (.decThr ib b1 b2h b2l) := rfl
theorem packCfg (f : Settings) : Statement (.packCfg f) := rfl
theorem decCorr (st : Snapshot) : Statement (.decCorr st) := rfl
theorem decWrf (st : Snapshot) : Statement (.decWrf st) := rfl
theorem decSlt (st : Snapshot) (ix : Byte) : Statement (.decSlt st ix) := rfl
theorem decKey (st : Snapshot) (ix : Byte) : Statement (.decKey st ix) := rfl
theorem decPos (st : Snapshot) (ix : Byte) : Statement (.decPos st ix) := rfl
theorem wrCfg (f : Settings) : Statement (.wrCfg f) := rfl
theorem wrThrKey (k : Byte) (v : Magnitude) : Statement (.wrThrKey k v) := rfl
theorem wrThrSlp (v : Magnitude) : Statement (.wrThrSlp v) := rfl
theorem rdStatus : Statement .rdStatus := rfl

end Sys2Proof.Laws.EncodeLength
end

