-- ==== Sys2Proof/Laws/Safety.lean ====
section
/-! SUPPORT. The invariant of the machine as a proposition, its parts at the parameters of reset, and the three
updates that keep it. -/

namespace Sys2Proof.Safety

open Sys2Proof.Machine

/-- The invariant, part by part. -/
theorem invariant_iff (s : State) :
    invariant s = true ↔ s.params.admissible = true ∧ (s.hstate = .ready ↔ s.devAddr.isSome = true)
      ∧ pendingOwned s = true ∧ (∀ e ∈ s.events, eventLegal s.params e = true)
      ∧ ∀ r ∈ s.responses, responseLegal r = true := by
  have hc : handleCoherent s = true ↔ (s.hstate = .ready ↔ s.devAddr.isSome = true) := by
    simp only [handleCoherent]
    cases s.hstate <;> cases s.devAddr <;> simp
  simp only [invariant, Bool.and_eq_true, List.all_eq_true, hc]
  tauto

/-- Sending a legal packet keeps the invariant. -/
theorem invariant_send {s : State} {packet : List Byte} (h : invariant s = true)
    (hp : responseLegal packet = true) : invariant (s.send packet) = true := by
  rw [invariant_iff] at h ⊢
  refine ⟨h.1, h.2.1, h.2.2.1, h.2.2.2.1, fun r hr => ?_⟩
  rcases List.mem_append.mp hr with hr | hr
  · exact h.2.2.2.2 r hr
  · exact List.mem_singleton.mp hr ▸ hp

/-- Settling an outstanding request keeps the invariant. -/
theorem invariant_settle {s : State} (h : invariant s = true) : invariant s.settle = true := by
  cases ha : s.answers with
  | nil => rwa [State.settle_waiting ha]
  | cons ans rest =>
    cases hp : s.pending with
    | none => simpa [State.settle, hp] using h
    | some req =>
      rw [State.settle_answered hp ha]
      refine invariant_send ?_ (State.packetOf_legal ans req)
      rw [invariant_iff] at h ⊢
      have ho := h.2.2.1
      simp only [pendingOwned, hp, Bool.and_eq_true] at ho
      refine ⟨h.1, h.2.1, rfl, fun e he => ?_, h.2.2.2.2⟩
      rcases List.mem_append.mp he with he | he
      · exact h.2.2.2.1 e he
      · exact List.mem_singleton.mp he ▸ State.eventOf_legal ans ho.1

/-- The parameters of this implementation are admissible, although nothing else is known of them (log 6). -/
theorem params_admissible : Config.params.admissible = true := by
  have h := Config.openParams.property
  simp only [Params.admissible, Bool.and_eq_true] at h
  show Params.admissible _ = true
  simp only [Params.admissible, Bool.and_eq_true]
  exact ⟨⟨h.1.1, by decide⟩, by decide⟩

end Sys2Proof.Safety
end

