-- ==== Sys2Proof/Tests/Slice0.lean ====
section
/-! SUPPORT. The model's own tests. Every expected value is copied from a worked example or a vector of the spec
(95_test_vectors, 42_config_pack R143), named beside it; `refcfg` is the spec's fixture REFCFG, used here only (R9). -/

namespace Sys2Proof.Tests

open Sys2Proof Sys2Proof.Machine Sys2Proof.Safety Sys2Proof.Spec

/-! ### The fixture and small states -/

/-- REFCFG (R143). The sentinel's value is this test's own. -/
def refcfg : Params where
  cfgField :=
    { mode := ⟨.cfg1, 7, 1⟩, thresholdClass := ⟨.cfg1, 6, 1⟩, keyOutputMode := ⟨.cfg1, 5, 1⟩,
      autoAdjust := ⟨.cfg1, 4, 1⟩, powerSave := ⟨.cfg1, 3, 1⟩, dynamicThreshold := ⟨.cfg1, 2, 1⟩,
      autoResetTime := ⟨.cfg1, 0, 2⟩, keyCount := ⟨.cfg2, 4, 4⟩, keyAckTime := ⟨.cfg2, 0, 4⟩,
      slide1Size := ⟨.cfg3, 0, 4⟩, slide2Size := ⟨.cfg3, 4, 4⟩, slide3Size := ⟨.cfg4, 0, 4⟩,
      keyOffCount := ⟨.cfg4, 4, 4⟩ }
  cfgLegal :=
    { mode := [0, 1], thresholdClass := [0, 1], keyOutputMode := [0, 1], autoAdjust := [0, 1], powerSave := [0, 1],
      dynamicThreshold := [0, 1], autoResetTime := [0, 1, 2, 3],
      keyCount := [0, 1, 2, 3, 4, 5, 6, 7, 8, 9],
      keyAckTime := [0, 1, 2, 3, 4, 5, 6, 7, 8, 9, 10, 11, 12, 13, 14, 15],
      slide1Size := [0, 3, 4, 5, 6, 7, 8, 9], slide2Size := [0, 3, 4, 5, 6, 7, 8, 9],
      slide3Size := [0, 3, 4, 5, 6, 7, 8, 9],
      keyOffCount := [0, 1, 2, 3, 4, 5, 6, 7, 8, 9, 10, 11, 12, 13, 14, 15] }
  cfgDefault := ⟨0, 0, 0, 0, 0, 0, 0, 0, 0, 0, 0, 0, 0⟩
  cfgFactory := ⟨0, 0, 0, 0⟩
  slideXNum9 := 9
  slideDisable := 0
  regAddrSentinel := 7
  keyBits := Config.keyBitsDecided
  sltBits := Config.sltBitsDecided

/-- A state of the block with one packet presented and some answers ready. -/
def st (h : HState) (a : Option BusAddr) (packet : List Byte) (answers : List TAns) : State :=
  { hstate := h, devAddr := a, pending := none, hostInputs := [.command packet], answers := answers,
    responses := [], events := [], params := refcfg }

/-- The state one step later. -/
def after (s : State) : Option State :=
  match step s with
  | .next t => some t
  | .fault _ => none
  | .refused _ => none

/-- What the host gets back for a packet sent right after reset, under REFCFG. -/
def answer (packet : List Byte) : Option (List (List Byte)) := (after (st .uninit none packet [])).map (·.responses)

/-- Settings of D-P3 and D-P6. -/
def dp3 : Settings := ⟨1, 0, 1, 0, 1, 0, 3, 6, 5, 3, 0, 0, 2⟩
def dp6 : Settings := ⟨0, 0, 0, 0, 0, 0, 0, 0, 0, 1, 0, 0, 0⟩

/-- Snapshots `SA` and `SD` of D-S. -/
def sa : Snapshot := ⟨0xC4, 0x01, 0x01, 0x32, 0, 0⟩
def sd : Snapshot := ⟨0x3B, 0xAA, 0xFE, 0x10, 0x80, 0xFF⟩

/-- Answers of the transport. -/
def yes : TAns := ⟨true, sa⟩
def no : TAns := ⟨false, sa⟩

/-- REFCFG meets every constraint of R28 and R140, as R143 says. -/
theorem test_refcfg_admissible : refcfg.admissible = true := by decide
theorem test_refcfg_factory : packCfg refcfg refcfg.cfgDefault = refcfg.cfgFactory := by decide

/-! ### Well-formedness: an ill-formed term for each check is refused -/

theorem test_ill_init_reserved1 : (Instr.init 1#1 0x50#7 0#6 true true).wellFormed refcfg = false := by decide
theorem test_ill_init_reserved2 : (Instr.init 0#1 0x50#7 1#6 true true).wellFormed refcfg = false := by decide
theorem test_ill_extract_start : (Instr.extract 0xFF 8 0).wellFormed refcfg = false := by decide
theorem test_ill_extract_width : (Instr.extract 0xFF 7 2).wellFormed refcfg = false := by decide
theorem test_ill_encThrKey : (Instr.encThrKey 10 100).wellFormed refcfg = false := by decide
theorem test_ill_decThr_index : (Instr.decThr 0xCA 8 0 0).wellFormed refcfg = false := by decide
theorem test_ill_decThr_nibble : (Instr.decThr 0xC0 0xE7 3 1).wellFormed refcfg = false := by decide
theorem test_ill_packCfg : (Instr.packCfg dp6).wellFormed refcfg = false := by decide
theorem test_ill_decSlt : (Instr.decSlt sa 4).wellFormed refcfg = false := by decide
theorem test_ill_decKey : (Instr.decKey sa 10).wellFormed refcfg = false := by decide
theorem test_ill_decPos : (Instr.decPos sa 0).wellFormed refcfg = false := by decide
theorem test_ill_wrCfg : (Instr.wrCfg dp6).wellFormed refcfg = false := by decide
theorem test_ill_wrThrKey : (Instr.wrThrKey 10 100).wellFormed refcfg = false := by decide
theorem test_well_formed_neighbours :
    (Instr.extract 0xFF 5 3).wellFormed refcfg = true ∧ (Instr.encThrKey 9 7).wellFormed refcfg = true ∧
    (Instr.decKey sa 9).wellFormed refcfg = true ∧ (Instr.packCfg dp3).wellFormed refcfg = true := by decide

/-! ### Decoding: a packet of each command, written from the formats R82 to R92 -/

theorem test_decode_init : decode [0x01, 0xD0, 0x06] = .ok (.init 1#1 0x50#7 1#6 true false) := by decide
theorem test_decode_extract : decode [0x10, 0xA0, 0x05, 0x03] = .ok (.extract 0xA0 5 3) := by decide
theorem test_decode_encThrKey : decode [0x20, 0x04, 0xFF, 0xFF] = .ok (.encThrKey 4 (BitVec.ofInt 16 (-1))) := by
  decide
theorem test_decode_encThrSlp : decode [0x21, 0x2C, 0x01] = .ok (.encThrSlp (BitVec.ofInt 16 300)) := by decide
theorem test_decode_decThr : decode [0x22, 0xC0, 0xE7, 0x31] = .ok (.decThr 0xC0 0xE7 3#4 1#4) := by decide
theorem test_decode_packCfg :
    decode [0x30, 1, 0, 1, 0, 1, 0, 3, 6, 5, 3, 0, 0, 2] = .ok (.packCfg dp3) := by decide
theorem test_decode_decCorr : decode [0x40, 0x3B, 0xAA, 0xFE, 0x10, 0x80, 0xFF] = .ok (.decCorr sd) := by decide
theorem test_decode_decWrf : decode [0x41, 0x3B, 0xAA, 0xFE, 0x10, 0x80, 0xFF] = .ok (.decWrf sd) := by decide
theorem test_decode_decSlt : decode [0x42, 0x3B, 0xAA, 0xFE, 0x10, 0x80, 0xFF, 2] = .ok (.decSlt sd 2) := by decide
theorem test_decode_decKey : decode [0x43, 0x3B, 0xAA, 0xFE, 0x10, 0x80, 0xFF, 9] = .ok (.decKey sd 9) := by decide
theorem test_decode_decPos : decode [0x44, 0x3B, 0xAA, 0xFE, 0x10, 0x80, 0xFF, 3] = .ok (.decPos sd 3) := by decide
theorem test_decode_wrCfg :
    decode [0x50, 1, 0, 1, 0, 1, 0, 3, 6, 5, 3, 0, 0, 2] = .ok (.wrCfg dp3) := by decide
theorem test_decode_wrThrKey : decode [0x51, 0x03, 0x64, 0x00] = .ok (.wrThrKey 3 (BitVec.ofInt 16 100)) := by decide
theorem test_decode_wrThrSlp : decode [0x52, 0xFB, 0xFF] = .ok (.wrThrSlp (BitVec.ofInt 16 (-5))) := by decide
theorem test_decode_rdStatus : decode [0x53] = .ok .rdStatus := by decide
/-- D-H26 to D-H30, D-X16, D-X17: what is no command. -/
theorem test_decode_illegal :
    decode [0x00] = .error (.unknownOpcode 0x00) ∧ decode [0xFF, 0x00] = .error (.unknownOpcode 0xFF) ∧
    decode [] = .error .emptyPacket ∧ decode [0x53, 0x00] = .error (.wrongLength .rdStatus) ∧
    decode [0x11, 0, 0, 0] = .error (.unknownOpcode 0x11) ∧
    decode [0x10, 0xFF, 0x05] = .error (.wrongLength .extract) ∧
    decode [0x10, 0xFF, 0x05, 0x03, 0x00] = .error (.wrongLength .extract) := by decide
theorem test_table_word : decodeTableWord 8 0x20 = some (.encThrKey 0 0) ∧ decodeTableWord 8 0x00 = none := by decide
theorem test_text : (Instr.encThrKey 3 (BitVec.ofInt 16 (-5))).text = "ENC_THR_KEY 3, -5" := by decide +kernel

/-! ### One step of each command -/

/-- D-X8 and D-X14. -/
theorem test_extract : answer [0x10, 0x5A, 0x02, 0x04] = some [[0x00, 0x06]] := by decide
theorem test_extract_refused : answer [0x10, 0xFF, 0x05, 0x04] = some [[0x03]] := by decide
/-- D-T6 and D-T11. -/
theorem test_encThrKey : answer [0x20, 0x01, 0x00, 0x01] = some [[0x00, 0xC1, 0x00, 0x10]] := by decide
theorem test_encThrKey_negative : answer [0x20, 0x04, 0xFF, 0xFF] = some [[0x00, 0xC4, 0x08, 0x00]] := by decide
/-- D-T20 and D-T24. -/
theorem test_encThrSlp : answer [0x21, 0x03, 0x00] = some [[0x00, 0xD0, 0x03, 0x00]] := by decide
theorem test_encThrSlp_clamped : answer [0x21, 0xE8, 0x03] = some [[0x00, 0xD0, 0xE7, 0x30]] := by decide
/-- D-T30 and D-T34. -/
theorem test_decThr : answer [0x22, 0xC3, 0xE7, 0x30] = some [[0x00, 0x03, 0xE7, 0x03]] := by decide
theorem test_decThr_unchecked : answer [0x22, 0xC0, 0xFF, 0xF0] = some [[0x00, 0x00, 0xFF, 0x0F]] := by decide
/-- D-P3 and D-P8. -/
theorem test_packCfg : answer [0x30, 1, 0, 1, 0, 1, 0, 3, 6, 5, 3, 0, 0, 2] = some [[0x00, 0xAB, 0x65, 0x03, 0x20]] := by
  decide
theorem test_packCfg_refused : answer [0x30, 2, 0, 0, 0, 0, 0, 0, 0, 0, 0, 0, 0, 0] = some [[0x03]] := by decide
/-- D-S2 and D-S3. -/
theorem test_decCorr_clear : answer [0x40, 0x3B, 0xAA, 0xFE, 0x10, 0x80, 0xFF] = some [[0x00, 0x00]] := by decide
theorem test_decCorr_set : answer [0x40, 0x80, 0x80, 0, 0, 0, 0] = some [[0x00, 0x01]] := by decide
/-- D-S4 and S5. -/
theorem test_decWrf_clear : answer [0x41, 0x3B, 0xAA, 0xFE, 0x10, 0x80, 0xFF] = some [[0x00, 0x00]] := by decide
theorem test_decWrf_set : answer [0x41, 0xC4, 0x01, 0x01, 0x32, 0, 0] = some [[0x00, 0x01]] := by decide
/-- S5 and D-S9. -/
theorem test_decSlt_1 : answer [0x42, 0xC4, 0x01, 0x01, 0x32, 0, 0, 1] = some [[0x00, 0x01]] := by decide
theorem test_decSlt_2 : answer [0x42, 0x3B, 0xAA, 0xFE, 0x10, 0x80, 0xFF, 2] = some [[0x00, 0x01]] := by decide
/-- D-S15 and D-S17. -/
theorem test_decKey_7 : answer [0x43, 0x3B, 0xAA, 0xFE, 0x10, 0x80, 0xFF, 7] = some [[0x00, 0x00]] := by decide
theorem test_decKey_9 : answer [0x43, 0x3B, 0xAA, 0xFE, 0x10, 0x80, 0xFF, 9] = some [[0x00, 0x00]] := by decide
/-- D-S22 and D-S24. -/
theorem test_decPos_1 : answer [0x44, 0x3B, 0xAA, 0xFE, 0x10, 0x80, 0xFF, 1] = some [[0x00, 0x10]] := by decide
theorem test_decPos_3 : answer [0x44, 0x3B, 0xAA, 0xFE, 0x10, 0x80, 0xFF, 3] = some [[0x00, 0xFF]] := by decide
/-- D-H1 and D-H2. -/
theorem test_init : (after (st .uninit none [0x01, 0x50, 0x03] [])).map (fun t => (t.responses, t.hstate, t.devAddr))
    = some ([[0x00]], .ready, some 0x50#7) := by decide
theorem test_init_fails : (after (st .uninit none [0x01, 0x50, 0x01] [])).map (fun t => (t.responses, t.hstate, t.devAddr))
    = some ([[0x01]], .failed, none) := by decide
/-- D-H21 and D-H23. -/
theorem test_wrCfg :
    (after (st .ready (some 0x50#7) [0x50, 1, 0, 1, 0, 1, 0, 3, 6, 5, 3, 0, 0, 2] [yes])).map
      (fun t => (t.responses, t.events))
    = some ([[0x00]], [.write 0x50#7 7 4 [0xAB, 0x65, 0x03, 0x20] true]) := by decide
theorem test_wrCfg_refused :
    (after (st .failed none [0x50, 0, 0, 0, 0, 0, 0, 0, 0, 0, 1, 0, 0, 0] [yes])).map (fun t => (t.responses, t.events))
    = some ([[0x03]], []) := by decide
/-- D-H15 and D-H18. -/
theorem test_wrThrKey :
    (after (st .ready (some 0x2A#7) [0x51, 0x03, 0x64, 0x00] [no])).map (fun t => (t.responses, t.events))
    = some ([[0x02]], [.write 0x2A#7 7 3 [0xC3, 0x64, 0x00] false]) := by decide
theorem test_wrThrKey_noHandle :
    (after (st .uninit none [0x51, 0x03, 0x64, 0x00] [yes])).map (fun t => (t.responses, t.events))
    = some ([[0x05]], []) := by decide
/-- D-H19 and D-H20. -/
theorem test_wrThrSlp :
    (after (st .ready (some 0x2A#7) [0x52, 0x2C, 0x01] [yes])).map (fun t => (t.responses, t.events))
    = some ([[0x00]], [.write 0x2A#7 7 3 [0xD0, 0x2C, 0x10] true]) := by decide
theorem test_wrThrSlp_negative :
    (after (st .ready (some 0x2A#7) [0x52, 0xFB, 0xFF] [yes])).map (fun t => (t.responses, t.events))
    = some ([[0x00]], [.write 0x2A#7 7 3 [0xD0, 0x00, 0x00] true]) := by decide
/-- D-H12 and D-H13. -/
theorem test_rdStatus :
    (after (st .ready (some 0x50#7) [0x53] [yes])).map (fun t => (t.responses, t.events))
    = some ([[0x00, 0xC4, 0x01, 0x01, 0x32, 0, 0]], [.read 0x50#7 7 6 true [0xC4, 0x01, 0x01, 0x32, 0, 0]]) := by decide
theorem test_rdStatus_fails :
    (after (st .ready (some 0x50#7) [0x53] [no])).map (fun t => (t.responses, t.events))
    = some ([[0x02]], [.read 0x50#7 7 6 false []]) := by decide
/-- The word of a table row runs as the first command after reset, whatever the open parameters are. -/
theorem test_fetch_first : ∃ t, step (State.reset.withFetchWord 8 0x53) = .next t ∧ t.responses = [[0x05#8]] :=
  ⟨_, rfl, rfl⟩

/-- R218 and R232, in the reading of log 18; R234, in that of log 20. -/
theorem test_handleFirst :
    handleFirst [.init 1#1 0#7 0#6 true true, .init 0#1 0x50#7 0#6 true true, .rdStatus] = true ∧
    handleFirst [.init 0#1 0x50#7 0#6 true false, .init 0#1 0x50#7 0#6 true true, .rdStatus] = false ∧
    initOnce [.init 0#1 0x50#7 0#6 true true, .rdStatus, .init 0#1 0x50#7 0#6 true true] = false := by decide
theorem test_runOver : runOver { st .ready (some 0x50#7) [] [] with hostInputs := [.rst] } = true ∧
    runOver (st .ready (some 0x50#7) [0x53] []) = false := by decide

/-! ### Witnesses: the hypotheses of each statement, and each of its clauses, can be met -/

/-- A state that waits for the transport. -/
def waiting (req : TReq) (answers : List TAns) : State :=
  { st .ready (some 0x50#7) [0x53] answers with pending := some req }

theorem witness_ResetClearsOnlyHandle :
    ∃ (s : State) (rest : List HostInput), s.pending = none ∧ s.hostInputs = .rst :: rest ∧ s.hstate = .failed :=
  ⟨{ st .failed none [] [] with hostInputs := [.rst] }, [], rfl, rfl, rfl⟩
theorem witness_StepRunsDecodedCommand : ∃ (s : State) (packet : List Byte) (rest : List HostInput) (i : Instr),
    s.pending = none ∧ s.hostInputs = .command packet :: rest ∧ decode packet = .ok i :=
  ⟨st .uninit none [0x53] [], [0x53], [], .rdStatus, rfl, rfl, by decide⟩
theorem witness_IllegalPacketsExactly_command : isCommandPacket [0x53] :=
  ⟨(0x53, 1), by decide, by decide, by decide⟩
theorem witness_IllegalPacketsExactly_illegal :
    ¬ isCommandPacket [0x53, 0x00] ∧ ¬ isCommandPacket [] ∧ ¬ isCommandPacket [0x00] ∧
    (st .ready none [0x53, 0x00] []).pending = none ∧
    (st .ready none [0x53, 0x00] []).hostInputs = .command [0x53, 0x00] :: [] := by
  refine ⟨?_, ?_, ?_, rfl, rfl⟩ <;> (unfold isCommandPacket; decide)
theorem witness_IdleBlockDoesNothing : ∃ s : State, s.pending = none ∧ s.hostInputs = [] :=
  ⟨State.reset, rfl, rfl⟩
theorem witness_WaitingBlockTakesNothing : ∃ (s : State) (req : TReq),
    s.pending = some req ∧ s.answers = [] ∧ s.hostInputs ≠ [] :=
  ⟨waiting (.rd 0x50#7 7 6) [], _, rfl, rfl, by decide⟩
theorem witness_LateAnswerCompletesCommand_write : ∃ (s : State) (ans : TAns) (rest : List TAns) (d : BusAddr)
    (r n : Nat) (l : List Byte), s.answers = ans :: rest ∧ s.pending = some (.wr d r n l) :=
  ⟨waiting (.wr 0x50#7 7 3 [0xD0, 0, 0]) [no], _, _, _, _, _, _, rfl, rfl⟩
theorem witness_LateAnswerCompletesCommand_read : ∃ (s : State) (ans : TAns) (rest : List TAns) (d : BusAddr)
    (r n : Nat), s.answers = ans :: rest ∧ s.pending = some (.rd d r n) :=
  ⟨waiting (.rd 0x50#7 7 6) [yes], _, _, _, _, _, rfl, rfl⟩
theorem witness_EncodeInvertsDecode : ∃ packet i, decode packet = .ok i ∧ i.opcode = .init :=
  ⟨[0x01, 0xFF, 0xFF], .init 1#1 0x7F#7 0x3F#6 true true, by decide, rfl⟩
theorem witness_PacketsHaveTheirFormats :
    (0xD0#8).toNat = 128 * (1#1).toNat + (0x50#7).toNat ∧
    (0x06#8).toNat = 4 * (1#6).toNat + 2 * true.toNat + false.toNat ∧
    (0xFF85#16).toNat = 256 * (0xFF#8).toNat + (0x85#8).toNat ∧
    (0x31#8).toNat = 16 * (3#4).toNat + (1#4).toNat := by decide
/-- The hypotheses of `refusesOtherLengths`, for an opcode with one operand byte too few. -/
theorem witness_refusesOtherLengths : ∃ (s : State) (operands : List Byte) (rest : List HostInput),
    operands.length ≠ 3 ∧ s.pending = none ∧ s.hostInputs = .command (0x10#8 :: operands) :: rest :=
  ⟨st .uninit none [0x10, 0xFF, 0x05] [], [0xFF, 0x05], [], by decide, rfl, rfl⟩
theorem witness_ExtractAnswersField :
    ((7#8).toNat ≤ 7 ∧ (1#8).toNat ≤ 8 - (7#8).toNat) ∧ ((0#8).toNat ≤ 7 ∧ (8#8).toNat ≤ 8 - (0#8).toNat) ∧
    (7 < (8#8).toNat) ∧ (8 < (7#8).toNat + (2#8).toNat) := by decide
theorem witness_ExtractAndPlaceLaws : (5#8 : Byte).toNat < 2 ^ 3 ∧
    (∀ i : Nat, 5 ≤ i → i < 5 + 3 → (0x1F#8 : Byte).getLsbD i = false) ∧
    (∀ i : Nat, 5 ≤ i → i < 5 + 3 → (0xA0#8 : Byte).getLsbD i = (0xBF#8 : Byte).getLsbD i) := by
  refine ⟨by decide, ?_, ?_⟩ <;>
    (intro i h1 h2; have h : i = 5 ∨ i = 6 ∨ i = 7 := by omega
     rcases h with rfl | rfl | rfl <;> rfl)
theorem witness_EncodesKeyThreshold : (9#8).toNat ≤ 9 ∧ 9 < (10#8).toNat := by decide
theorem witness_DecodesThreshold :
    (0xC0 ≤ (0xC9#8).toNat ∧ (0xC9#8).toNat ≤ 0xC9) ∧ (0xD0#8).toNat = 0xD0 ∧
    ¬ (0xC0 ≤ (0xCA#8).toNat ∧ (0xCA#8).toNat ≤ 0xC9 ∨ (0xCA#8).toNat = 0xD0) ∧ (1#4 ≠ 0#4) := by decide
theorem witness_ThresholdRoundTrip : (0#8).toNat ≤ 9 := by decide
theorem witness_PackCfgAnswersGroup_valid : ∀ i, dp3.get i ∈ refcfg.cfgLegal.get i :=
  (validCfg_iff refcfg dp3).1 (by decide)
theorem witness_PackCfgAnswersGroup_illegal : someSettingIllegal refcfg dp6 := ⟨.slide1Size, by decide⟩
theorem witness_PackedBitsAreFieldBits : ((packCfg refcfg dp3).get .cfg1).getLsbD 7 = true := by decide
theorem witness_PackedFieldsReadBack :
    refcfg.admissible = true ∧ validCfg refcfg dp3 = true ∧ validCfg refcfg refcfg.cfgDefault = true := by decide
theorem witness_PackedFieldsReadBack_uncovered : Config.admissibleWitness.val.admissible = true ∧
    validCfg Config.admissibleWitness.val Config.admissibleWitness.val.cfgDefault = true ∧
    ∀ i, ¬ covers Config.admissibleWitness.val i .cfg1 7 := by
  refine ⟨by decide, by decide, fun i => ?_⟩
  unfold covers
  cases i <;> decide
theorem witness_ThirdByteIsSliderSizes : refcfg.admissible = true ∧ validCfg refcfg dp3 = true := by decide
theorem witness_DefaultsPackToFactorySequence : ∃ s : State,
    s.params.admissible = true ∧ packCfg s.params s.params.cfgDefault = s.params.cfgFactory :=
  ⟨st .uninit none [] [], by decide, by decide⟩
theorem witness_FirstByteFieldWidths :
    refcfg.admissible = true ∧ Config.admissibleWitness.val.admissible = true := by decide
theorem witness_SliderTouchedReadsSt0 :
    (3#8).toNat = (2 : Fin 3).val + 1 ∧ (0#8).toNat < 1 ∧ 3 < (4#8).toNat := by decide
theorem witness_KeyPressedReadsSt1AndSt2 :
    (8#8).toNat = (7 : Fin 8).val + 1 ∧ (9#8).toNat = 9 ∧ (0#8).toNat < 1 ∧ 9 < (10#8).toNat := by decide
theorem witness_SliderPositionIsWholeByte :
    (1#8).toNat = 1 ∧ (2#8).toNat = 2 ∧ (3#8).toNat = 3 ∧ (0#8).toNat < 1 ∧ 3 < (4#8).toNat := by decide
theorem witness_UndescribedStatusBitsIgnored : ∃ a b : Snapshot, a ≠ b ∧
    (∀ i, i < 8 → ¬ (3 ≤ i ∧ i ≤ 5) → a.st0.getLsbD i = b.st0.getLsbD i) ∧ a.st1 = b.st1 ∧
    a.st2.getLsbD 0 = b.st2.getLsbD 0 ∧ a.st3 = b.st3 ∧ a.st4 = b.st4 ∧ a.st5 = b.st5 :=
  ⟨⟨0x38, 0, 0xFE, 0, 0, 0⟩, ⟨0, 0, 0, 0, 0, 0⟩, by decide, by decide, rfl, by decide, rfl, rfl, rfl⟩
theorem witness_InitCreatesHandleOnce : (1#1 ≠ 0#1) ∧ (0x20#6 ≠ 0#6) ∧
    (st .failed none [] []).hstate ≠ .uninit ∧ (st .uninit none [] []).hstate = .uninit := by decide
/-- One state for the three transaction statements about a usable handle, and one without. -/
theorem witness_transactions : ∃ (s : State) (a : BusAddr) (ans : TAns) (rest : List TAns),
    s.hstate = .ready ∧ s.devAddr = some a ∧ s.answers = ans :: rest ∧ (∀ i, dp3.get i ∈ s.params.cfgLegal.get i) ∧
    someSettingIllegal s.params dp6 ∧ (9#8).toNat ≤ 9 ∧ 9 < (10#8).toNat ∧ (st .uninit none [] []).hstate ≠ .ready :=
  ⟨st .ready (some 0x50#7) [] [no], _, _, _, rfl, rfl, rfl, witness_PackCfgAnswersGroup_valid,
    witness_PackCfgAnswersGroup_illegal, by decide, by decide, by decide⟩
theorem witness_WriteSettingsTransaction : ∃ (f g : Settings) (s : State) (a : BusAddr) (ans : TAns) (rest : List TAns),
    someSettingIllegal s.params g ∧ (∀ i, f.get i ∈ s.params.cfgLegal.get i) ∧ s.hstate = .ready ∧
    s.devAddr = some a ∧ s.answers = ans :: rest :=
  ⟨dp3, dp6, st .ready (some 0x50#7) [] [no], _, _, _, witness_PackCfgAnswersGroup_illegal,
    witness_PackCfgAnswersGroup_valid, rfl, rfl, rfl⟩
theorem witness_WriteKeyThresholdTransaction : ∃ (s : State) (a : BusAddr) (ans : TAns) (rest : List TAns),
    (9#8).toNat ≤ 9 ∧ 9 < (10#8).toNat ∧ s.hstate = .ready ∧ s.devAddr = some a ∧ s.answers = ans :: rest :=
  ⟨st .ready (some 0x2A#7) [] [yes], _, _, _, by decide, by decide, rfl, rfl, rfl⟩
theorem witness_WriteSleepThresholdTransaction : ∃ (s : State) (a : BusAddr) (ans : TAns) (rest : List TAns),
    s.hstate = .ready ∧ s.devAddr = some a ∧ s.answers = ans :: rest :=
  ⟨st .ready (some 0x2A#7) [] [yes], _, _, _, rfl, rfl, rfl⟩
theorem witness_ReadStatusTransaction : ∃ (s u : State) (a : BusAddr) (ans : TAns) (rest : List TAns),
    u.hstate ≠ .ready ∧ s.hstate = .ready ∧ s.devAddr = some a ∧ s.answers = ans :: rest :=
  ⟨st .ready (some 0x50#7) [] [yes], st .failed none [] [], _, _, _, by decide, rfl, rfl, rfl⟩
theorem witness_UnansweredRequestWaits : ∃ (i : Instr) (s : State) (a : BusAddr), i.isTransaction = true ∧
    i.wellFormed s.params = true ∧ s.hstate = .ready ∧ s.devAddr = some a ∧ s.answers = [] :=
  ⟨.wrCfg dp3, st .ready (some 0x50#7) [] [], _, rfl, by decide, rfl, rfl, rfl⟩
/-- A transaction of each kind meets the hypotheses of `UnansweredRequestWaits` and `LateAnswerEndsAsAtOnce`. -/
theorem witness_LateAnswerEndsAsAtOnce : ∃ (s : State) (a : BusAddr), s.hstate = .ready ∧ s.devAddr = some a ∧
    s.answers = [] ∧ ∀ i ∈ [Instr.wrCfg dp3, .wrThrKey 9 0, .wrThrSlp 0, .rdStatus],
      i.isTransaction = true ∧ i.wellFormed s.params = true :=
  ⟨st .ready (some 0x50#7) [] [], _, rfl, rfl, rfl, by decide⟩
theorem witness_WritesSendWhatEncodersAnswer : ∃ (s : State) (a : BusAddr) (ans : TAns) (rest : List TAns),
    s.hstate = .ready ∧ s.devAddr = some a ∧ s.answers = ans :: rest ∧
    (Instr.packCfg dp3).wellFormed s.params = true ∧ (Instr.encThrKey 9 7).wellFormed s.params = true ∧
    (Instr.encThrSlp 7).wellFormed s.params = true :=
  ⟨st .ready (some 0x50#7) [] [no], _, _, _, rfl, rfl, rfl, by decide, by decide, rfl⟩
theorem witness_PureCommandsIgnoreHandle : (Instr.decKey sa 9).isPure = true ∧
    (st .failed none [] []).params = refcfg := ⟨rfl, rfl⟩
theorem witness_PreconditionViolatedExactly : preconditionBroken (st .ready none [] []) (.init 0#1 0x50#7 0#6 true true) ∧
    ¬ preconditionBroken (st .uninit none [] []) (.init 0#1 0x50#7 0#6 false true) := by
  simp [preconditionBroken, st]
theorem witness_EveryCommandGetsOneResponse : ∃ i s t, exec i s = .next t ∧ t.responses = [[0x00#8]] :=
  ⟨.wrThrSlp 0, st .ready (some 0x50#7) [] [yes], _, rfl, by decide⟩
theorem witness_ErrorsArePrecise_invalidTransport : ∃ i s t, exec i s = .next t ∧ t.responses = s.responses ++ [[0x01#8]] :=
  ⟨.init 0#1 0x50#7 0#6 true false, st .uninit none [] [], _, rfl, by decide⟩
theorem witness_ErrorsArePrecise_transportFailure : ∃ i s t, exec i s = .next t ∧ t.responses = s.responses ++ [[0x02#8]] :=
  ⟨.rdStatus, st .ready (some 0x50#7) [] [no], _, rfl, by decide⟩
theorem witness_ErrorsArePrecise_other : ∃ i s t, exec i s = .next t ∧ t.responses = s.responses ++ [[0x05#8]] :=
  ⟨.rdStatus, st .failed none [] [no], _, rfl, by decide⟩
theorem witness_OnlyInitAndResetWriteHandle : ∃ s t, step s = .next t ∧ t.hstate ≠ s.hstate ∧ t.devAddr ≠ s.devAddr :=
  ⟨st .uninit none [0x01, 0x50, 0x03] [], _, rfl, by decide, by decide⟩
theorem witness_OnlyResetLeavesReadyOrFailed : ∃ s t, step s = .next t ∧ s.hstate ≠ .uninit ∧ t.hstate ≠ s.hstate :=
  ⟨{ st .failed none [] [] with hostInputs := [.rst] }, _, rfl, by decide, by decide⟩
theorem witness_NoTransportWithoutHandle : ∃ s t, step s = .next t ∧ s.pending = none ∧ s.hstate ≠ .ready :=
  ⟨st .failed none [0x53] [yes], _, rfl, rfl, by decide⟩
theorem witness_OneRequestPerTransaction_made : ∃ i s t, s.pending = none ∧ exec i s = .next t ∧
    i.isTransaction = true ∧ i.wellFormed s.params = true ∧ s.hstate = .ready :=
  ⟨.rdStatus, st .ready (some 0x50#7) [] [yes], _, rfl, rfl, rfl, rfl, rfl⟩
theorem witness_OneRequestPerTransaction_none : ∃ i s t, s.pending = none ∧ exec i s = .next t ∧
    ¬ (i.isTransaction = true ∧ i.wellFormed s.params = true ∧ s.hstate = .ready) :=
  ⟨.wrThrKey 10 0, st .ready (some 0x50#7) [] [yes], _, rfl, rfl, by decide⟩
theorem witness_StepMovesOneAtATime : ∃ s t, step s = .next t ∧ t.events ≠ s.events :=
  ⟨st .ready (some 0x50#7) [0x53] [yes], _, rfl, by decide⟩
theorem witness_HistoryIsNeverRead : ∃ s t, step s = .next t ∧ t.responses ≠ s.responses :=
  ⟨st .failed none [0x53] [], _, rfl, by decide⟩
theorem witness_EveryStepKeepsInvariant : ∃ s t, invariant s = true ∧ step s = .next t ∧ t ≠ s :=
  ⟨waiting (.wr 0x50#7 7 3 [0xD0, 0, 0]) [no], _, by decide, rfl, by decide⟩
theorem witness_BlocksShareNothing : ∃ (k : Nat) (sys : List State) (s t : State),
    sys[k]? = some s ∧ step s = .next t ∧ sys.length = 2 :=
  ⟨1, [State.reset, st .uninit none [0x53] []], _, _, rfl, rfl, rfl⟩
theorem witness_PollsRelayEverySnapshot : ∃ (snaps : List Snapshot) (s : State) (a : BusAddr) (inputs : List HostInput)
    (rest : List TAns), s.pending = none ∧ s.hstate = .ready ∧ s.devAddr = some a ∧
    s.hostInputs = snaps.map (fun _ => .command [0x53#8]) ++ inputs ∧
    s.answers = snaps.map (fun x => ⟨true, x⟩) ++ rest ∧ snaps.length = 1 :=
  ⟨[sa], st .ready (some 0x50#7) [0x53] [yes], _, [], [], rfl, rfl, rfl, rfl, rfl, rfl⟩

end Sys2Proof.Tests
end

section
/-! PROOFS of the scope family: the step equations of a command and of an idle block, what one step moves at the ports,
and the invariant at reset. -/

namespace Sys2Proof.Machine

open Sys2Proof.Safety

/-! ### The step, case by case -/

/-- With nothing outstanding and nothing presented a step is idle (log 2). -/
theorem step_of_nothing_presented {s : State} (hp : s.pending = none) (hi : s.hostInputs = []) :
    step s = .next s := by
  simp only [step, hp, hi]

/-- With nothing outstanding a step runs the command its packet decodes to (R19). -/
theorem step_of_command {s : State} {packet : List Byte} {rest : List HostInput} {i : Instr} (hp : s.pending = none)
    (hi : s.hostInputs = .command packet :: rest) (hd : decode packet = .ok i) :
    step s = exec i (s.setHostInputs rest) := by
  simp only [step, hp, hi, hd]

/-- Settles O5. -/
theorem idleBlockDoesNothing : Obligations.IdleBlockDoesNothing :=
  fun _ hp hi => step_of_nothing_presented hp hi

/-- Settles O3; the update that takes the packet from the host is `setHostInputs`. -/
theorem stepRunsDecodedCommand : Obligations.StepRunsDecodedCommand :=
  fun _ _ _ _ hp hi hd => step_of_command hp hi hd

/-! ### The invariant at reset -/

/-- Settles O49: the parameters are admissible though unknown, and every other part of the invariant speaks of an
absent handle, no request, and empty histories. -/
theorem resetMeetsInvariant : Obligations.ResetMeetsInvariant := by
  have handle : State.reset.hstate = .ready ↔ State.reset.devAddr.isSome = true := by simp [State.reset]
  have noEvents : ∀ e ∈ State.reset.events, eventLegal State.reset.params e = true := by simp [State.reset]
  have noResponses : ∀ r ∈ State.reset.responses, responseLegal r = true := by simp [State.reset]
  exact (invariant_iff _).mpr ⟨params_admissible, handle, rfl, noEvents, noResponses⟩

/-! ### What moves at the ports -/

/-- From `s` to `t` either no answer is taken, no event added and at most one response sent, or exactly one answer is
taken, one event recorded and one response sent. Only answers, events and responses are looked at. -/
def PortsMove (s t : State) : Prop :=
  (t.answers = s.answers ∧ t.events = s.events ∧
    (t.responses = s.responses ∨ ∃ packet, t.responses = s.responses ++ [packet])) ∨
  ∃ ans ev packet, s.answers = ans :: t.answers ∧ t.events = s.events ++ [ev] ∧
    t.responses = s.responses ++ [packet]

/-- Leaving the three ports alone is such a move. -/
theorem PortsMove.refl (s : State) : PortsMove s s := .inl ⟨rfl, rfl, .inl rfl⟩

/-- Sending one packet is such a move. -/
theorem portsMove_send (s : State) (packet : List Byte) : PortsMove s (s.send packet) :=
  .inl ⟨rfl, rfl, .inr ⟨packet, rfl⟩⟩

/-- Settling an outstanding request is such a move: all three ports when it is answered, none when it is not. -/
theorem portsMove_settle (s : State) : PortsMove s s.settle := by
  cases ha : s.answers with
  | nil => rw [State.settle_waiting ha]; exact .refl s
  | cons ans rest =>
    cases hp : s.pending with
    | none => simpa [State.settle, hp] using PortsMove.refl s
    | some req =>
      rw [State.settle_answered hp ha]
      exact .inr ⟨ans, _, _, ha, rfl, rfl⟩

/-- Whatever a command does is such a move. -/
theorem Effect.portsMove {i : Instr} {s t : State} (h : Effect i s t) : PortsMove s t := by
  cases h with
  | answers | refuses => exact portsMove_send s _
  | initFails => exact portsMove_send (s.setHState .failed) _
  | initSucceeds a => exact portsMove_send ((s.setDevAddr (some a)).setHState .ready) _
  | transacts req => exact portsMove_settle (s.setPending (some req))

/-- No command touches the parameters or what the host has yet to present. -/
theorem Effect.frame {i : Instr} {s t : State} (h : Effect i s t) :
    t.params = s.params ∧ t.hostInputs = s.hostInputs := by
  cases h with
  | answers | refuses | initFails | initSucceeds => exact ⟨rfl, rfl⟩
  | transacts req => exact (State.transact_frame req s).2.2

/-- Whatever a step does is such a move. -/
theorem StepEffect.portsMove {s t : State} (h : StepEffect s t) : PortsMove s t := by
  cases h with
  | settles => exact portsMove_settle s
  | idles => exact .refl s
  | resets => exact .refl s
  | rejects _ rest => exact portsMove_send (s.setHostInputs rest) _
  | runs _ _ _ _ _ _ _ he => exact he.portsMove

/-- No step changes the parameters. -/
theorem StepEffect.params_eq {s t : State} (h : StepEffect s t) : t.params = s.params := by
  cases h with
  | settles => exact (State.settle_frame s).2.2.1
  | idles | resets | rejects => rfl
  | runs _ _ _ _ _ _ _ he => exact he.frame.1

/-- A step takes at most the next input of the host. -/
theorem StepEffect.hostInputs_eq_or_cons {s t : State} (h : StepEffect s t) :
    t.hostInputs = s.hostInputs ∨ ∃ x, s.hostInputs = x :: t.hostInputs := by
  cases h with
  | settles => exact .inl (State.settle_frame s).2.2.2
  | idles => exact .inl rfl
  | resets _ _ hi => exact .inr ⟨_, hi⟩
  | rejects _ _ _ _ hi => exact .inr ⟨_, hi⟩
  | runs _ rest _ _ _ hi _ he =>
    have taken : t.hostInputs = rest := he.frame.2
    exact .inr ⟨_, taken ▸ hi⟩

/-- Settles O46: the parameters, the inputs and the other three ports, each by its lemma about what a step can do; an
event comes with its response, so the responses differ. -/
theorem stepMovesOneAtATime : Obligations.StepMovesOneAtATime := by
  intro s t h
  have effect := step_effect h
  refine ⟨effect.params_eq, effect.hostInputs_eq_or_cons, ?_⟩
  rcases effect.portsMove with ⟨ha, he, hr⟩ | ⟨ans, ev, packet, ha, he, hr⟩
  · exact ⟨.inl ⟨ha, he⟩, hr⟩
  · have longer : t.responses ≠ s.responses := by simp [hr]
    exact ⟨.inr ⟨ans, ev, ha, he, longer⟩, .inr ⟨packet, hr⟩⟩

end Sys2Proof.Machine
end

section
/-! PROOFS of the state family, first part: the invariant along every step, and what a step does to the handle and to
the transport. -/

namespace Sys2Proof.Machine

open Sys2Proof.Safety Sys2Proof.Spec

/-! ### The invariant -/

/-- The invariant does not look at what the host has yet to present. -/
theorem invariant_setHostInputs (s : State) (rest : List HostInput) :
    invariant (s.setHostInputs rest) = invariant s := rfl

/-- Writing a coherent handle while no request is outstanding keeps the invariant. -/
theorem invariant_setHandle {s : State} {h : HState} {a : Option BusAddr} (hs : invariant s = true)
    (hp : s.pending = none) (coherent : h = .ready ↔ a.isSome = true) :
    invariant ((s.setDevAddr a).setHState h) = true := by
  obtain ⟨adm, -, -, events, responses⟩ := (invariant_iff s).mp hs
  have owned : pendingOwned ((s.setDevAddr a).setHState h) = true := by simp [pendingOwned, hp]
  exact (invariant_iff _).mpr ⟨adm, coherent, owned, events, responses⟩

/-- Without a usable handle the address has no value. -/
theorem devAddr_eq_none_of_invariant {s : State} (hs : invariant s = true) (hr : s.hstate ≠ .ready) :
    s.devAddr = none := by
  obtain ⟨-, coherent, -⟩ := (invariant_iff s).mp hs
  simpa using mt coherent.mpr hr

/-- A legal request to the handle's address, made while the handle is usable, keeps the invariant: the address that the
request carries is the one the handle has. -/
theorem invariant_transact {s : State} {req : TReq} (hs : invariant s = true) (hr : s.hstate = .ready)
    (legal : requestLegal s.params req = true) (own : requestDev req = s.busAddr) :
    invariant (s.transact req) = true := by
  obtain ⟨adm, coherent, -, events, responses⟩ := (invariant_iff s).mp hs
  obtain ⟨a, ha⟩ := Option.isSome_iff_exists.mp (coherent.mp hr)
  have owned : pendingOwned (s.setPending (some req)) = true := by
    simp [pendingOwned, legal, own, ha, State.busAddr_of_some ha]
  exact invariant_settle ((invariant_iff _).mpr ⟨adm, coherent, owned, events, responses⟩)

/-- Whatever a command does while no request is outstanding keeps the invariant. -/
theorem Effect.invariant {i : Instr} {s t : State} (h : Effect i s t) (hp : s.pending = none)
    (hs : invariant s = true) : invariant t = true := by
  cases h with
  | answers payload hl => exact invariant_send hs (responseLegal_ok hl)
  | refuses e he =>
    rcases he with rfl | rfl
    · exact invariant_send hs (responseLegal_code .preconditionViolated)
    · exact invariant_send hs (responseLegal_code .noHandle)
  | initFails _ hu =>
    have unset : s.setDevAddr none = s := by
      rw [← devAddr_eq_none_of_invariant hs (by simp [hu])]; rfl
    have failed := invariant_setHandle (h := .failed) (a := none) hs hp (by simp)
    rw [unset] at failed
    exact invariant_send failed (responseLegal_code .invalidTransport)
  | initSucceeds a =>
    exact invariant_send (invariant_setHandle hs hp (by simp)) (responseLegal_code .ok)
  | transacts req _ hr legal own => exact invariant_transact hs hr legal own

/-- Settles O48, along the five things a step can do. -/
theorem everyStepKeepsInvariant : Obligations.EveryStepKeepsInvariant := by
  intro s t hs h
  cases step_effect h with
  | settles => exact invariant_settle hs
  | idles => exact hs
  | resets rest hp => exact invariant_setHandle (s := s.setHostInputs rest) (h := .uninit) (a := none) hs hp (by simp)
  | rejects _ rest =>
    exact invariant_send (s := s.setHostInputs rest) hs (responseLegal_code .illegalCommand)
  | runs _ _ _ _ hp _ _ he => exact he.invariant hp hs

/-! ### The handle and the transport -/

/-- An instruction with the opcode of `INIT` is an `INIT`. -/
theorem eq_init_of_opcode {i : Instr} (h : i.opcode = .init) : ∃ rsv1 a rsv2 tw tr, i = .init rsv1 a rsv2 tw tr := by
  cases i with
  | init rsv1 a rsv2 tw tr => exact ⟨rsv1, a, rsv2, tw, tr, rfl⟩
  | _ => cases h

/-- A command leaves the handle as it was, or it is an `INIT` in `UNINIT` (R22, R165). -/
theorem Effect.handle {i : Instr} {s t : State} (h : Effect i s t) :
    (t.hstate = s.hstate ∧ t.devAddr = s.devAddr) ∨
    ∃ rsv1 a rsv2 tw tr, i = .init rsv1 a rsv2 tw tr ∧ s.hstate = .uninit ∧
      ((t.hstate = .ready ∧ t.devAddr = some a) ∨ (t.hstate = .failed ∧ t.devAddr = s.devAddr)) := by
  cases h with
  | answers | refuses => exact .inl ⟨rfl, rfl⟩
  | initFails hi hu =>
    obtain ⟨rsv1, a, rsv2, tw, tr, rfl⟩ := eq_init_of_opcode hi
    exact .inr ⟨rsv1, a, rsv2, tw, tr, rfl, hu, .inr ⟨rfl, rfl⟩⟩
  | initSucceeds a hi hu => exact .inr ⟨_, a, _, _, _, hi, hu, .inl ⟨rfl, rfl⟩⟩
  | transacts req =>
    obtain ⟨hh, ha, -⟩ := State.transact_frame req s
    exact .inl ⟨hh, ha⟩

/-- Settles O42: of the five things a step can do, only a reset and an `INIT` touch the handle. -/
theorem onlyInitAndResetWriteHandle : Obligations.OnlyInitAndResetWriteHandle := by
  intro s t h changed
  have unkept : ¬ (t.hstate = s.hstate ∧ t.devAddr = s.devAddr) := not_and_or.mpr changed
  cases step_effect h with
  | settles =>
    obtain ⟨hh, ha, -⟩ := State.settle_frame s
    exact absurd ⟨hh, ha⟩ unkept
  | idles | rejects => exact absurd ⟨rfl, rfl⟩ unkept
  | resets rest hp hi => exact ⟨hp, .inl ⟨rest, hi, rfl, rfl⟩⟩
  | runs packet rest i _ hp hi hd he =>
    obtain ⟨rsv1, a, rsv2, tw, tr, rfl, hu, result⟩ := he.handle.resolve_left unkept
    exact ⟨hp, .inr ⟨packet, rest, rsv1, a, rsv2, tw, tr, hi, hd, hu, result⟩⟩

/-- Settles O43 from O42: an `INIT` writes the handle only in `UNINIT`, so the step took a reset. -/
theorem onlyResetLeavesReadyOrFailed : Obligations.OnlyResetLeavesReadyOrFailed := by
  intro s t h created changed
  obtain ⟨hp, ⟨rest, hi, hu, -⟩ | ⟨_, _, _, _, _, _, _, -, -, uninit, -⟩⟩ :=
    onlyInitAndResetWriteHandle s t h (.inl changed)
  · exact ⟨hu, hp, rest, hi⟩
  · exact absurd uninit created

/-- Without a usable handle no command reaches the transport (R170, R191). -/
theorem Effect.transport_of_not_ready {i : Instr} {s t : State} (h : Effect i s t) (hr : s.hstate ≠ .ready) :
    t.events = s.events ∧ t.pending = s.pending ∧ t.answers = s.answers := by
  cases h with
  | answers | refuses | initFails | initSucceeds => exact ⟨rfl, rfl, rfl⟩
  | transacts _ _ ready => exact absurd ready hr

/-- Settles O44: with nothing outstanding only a command could reach the transport, and it needs the handle. -/
theorem noTransportWithoutHandle : Obligations.NoTransportWithoutHandle := by
  intro s t h hp hr
  cases step_effect h with
  | settles req outstanding => simp [hp] at outstanding
  | idles | resets | rejects => exact ⟨rfl, hp, rfl⟩
  | runs _ _ _ _ _ _ _ he =>
    obtain ⟨events, pending, answers⟩ := he.transport_of_not_ready hr
    exact ⟨events, pending.trans hp, answers⟩

/-- Settles O1. -/
theorem resetLeavesNoHandle : Obligations.ResetLeavesNoHandle := ⟨rfl, rfl⟩

end Sys2Proof.Machine
end

section
/-! PROOFS of the state family, second part: what the status accessors read, how the packed settings read back, and how
wide the fields of the first byte are. -/

namespace Sys2Proof.Machine

open Sys2Proof.Spec

/-! ### The status accessors -/

/-- The correction flag is bit 7 of `ST0` (R151). -/
theorem correctionFlag_eq (st : Snapshot) : correctionFlag st = boolByte (st.st0.getLsbD 7) :=
  extractField_bit ..

/-- The write flag is bit 6 of `ST0` (R152). -/
theorem writeFlag_eq (st : Snapshot) : writeFlag st = boolByte (st.st0.getLsbD 6) :=
  extractField_bit ..

/-- Slider i is touched when bit `SLT_BIT(i)` of `ST0` is set (R153). -/
theorem sliderTouched_eq (p : Params) (st : Snapshot) (i : Fin 3) :
    sliderTouched p st i = boolByte (st.st0.getLsbD (p.sltBits[i]).val) :=
  extractField_bit ..

/-- Which keys are pressed depends on the whole of `ST1` and on bit 0 of `ST2` (R154). -/
theorem keyPressed_congr (p : Params) {a b : Snapshot} (h1 : a.st1 = b.st1)
    (h2 : a.st2.getLsbD 0 = b.st2.getLsbD 0) (k : Fin 9) : keyPressed p a k = keyPressed p b k := by
  by_cases hk : k.val < 8
  · simp only [keyPressed, hk, dite_true, h1]
  · simp only [keyPressed, hk, dite_false, extractField_bit, h2]

/-- A slider's position depends on `ST3`, `ST4` and `ST5` only (R155). -/
theorem sliderPosition_congr {a b : Snapshot} (h3 : a.st3 = b.st3) (h4 : a.st4 = b.st4) (h5 : a.st5 = b.st5)
    (i : Fin 3) : sliderPosition a i = sliderPosition b i := by
  match i with
  | 0 => simp only [sliderPosition, h3]
  | 1 => simp only [sliderPosition, h4]
  | 2 => simp only [sliderPosition, h5]

/-- Settles O30: each decoder answers what its accessor gives, and the accessors agree on the two snapshots, since bits
7, 6 and `SLT_BIT(i)` of `ST0` (at most 2) are described ones. -/
theorem undescribedStatusBitsIgnored : Obligations.UndescribedStatusBitsIgnored := by
  intro a b ix s h0 h1 h2 h3 h4 h5
  have correction : correctionFlag a = correctionFlag b := by
    rw [correctionFlag_eq, correctionFlag_eq, h0 7 (by omega) (by omega)]
  have write : writeFlag a = writeFlag b := by
    rw [writeFlag_eq, writeFlag_eq, h0 6 (by omega) (by omega)]
  have touched : sliderTouched s.params a = sliderTouched s.params b := by
    funext i
    rw [sliderTouched_eq, sliderTouched_eq, h0 _ (by omega) (by omega)]
  have pressed : keyPressed s.params a = keyPressed s.params b := funext (keyPressed_congr _ h1 h2)
  have position : sliderPosition a = sliderPosition b := funext (sliderPosition_congr h3 h4 h5)
  refine ⟨?_, ?_, ?_, ?_, ?_⟩
  · simp only [exec, execDecCorr, correction]
  · simp only [exec, execDecWrf, write]
  · simp only [exec, execDecSlt, touched]
  · simp only [exec, execDecKey, pressed]
  · simp only [exec, execDecPos, position]

/-! ### The packed settings -/

/-- No bit belongs to two fields (R28). -/
theorem covers_unique {p : Params} (ha : p.admissible = true) {i k : Field} {j : CfgByte} {b : Nat}
    (hi : covers p i j b) (hk : covers p k j b) : i = k := by
  obtain ⟨byteI, lowI, highI⟩ := hi
  obtain ⟨byteK, lowK, highK⟩ := hk
  by_contra hne
  have := admissible_disjoint ha hne (byteI.trans byteK.symm)
  omega

/-- `Place` bit by bit, as a proposition (R111). -/
theorem placeField_getLsbD_iff (v : Byte) (s b : Nat) :
    (placeField v s).getLsbD b = true ↔ b < 8 ∧ s ≤ b ∧ v.getLsbD (b - s) = true := by
  rw [placeField_getLsbD]
  simp [and_assoc]

/-- A bit from a setting's width on is 0 (R29, R136). -/
theorem setting_getLsbD_of_width_le {p : Params} {f : Settings} (ha : p.admissible = true)
    (hv : validCfg p f = true) {i : Field} {k : Nat} (hk : (p.cfgField.get i).width ≤ k) :
    (f.get i).getLsbD k = false :=
  Nat.testBit_lt_two_pow ((validCfg_fits ha hv i).trans_le (Nat.pow_le_pow_right (by omega) hk))

/-- A bit that a placed valid setting sets belongs to its field (R29, R136). -/
theorem covers_of_placeField {p : Params} {f : Settings} (ha : p.admissible = true) (hv : validCfg p f = true)
    {i : Field} {j : CfgByte} {b : Nat} (hj : (p.cfgField.get i).byte = j)
    (hb : (placeField (f.get i) (p.cfgField.get i).start).getLsbD b = true) : covers p i j b := by
  obtain ⟨-, low, bit⟩ := (placeField_getLsbD_iff ..).mp hb
  have inside : b - (p.cfgField.get i).start < (p.cfgField.get i).width := by
    by_contra outside
    simp [setting_getLsbD_of_width_le ha hv (not_lt.mp outside)] at bit
  exact ⟨hj, low, by omega⟩

/-- A packed bit is set exactly when the field it belongs to sets it (R135). -/
theorem packByte_getLsbD_iff {p : Params} {f : Settings} (ha : p.admissible = true) (hv : validCfg p f = true)
    (j : CfgByte) (b : Nat) :
    (packByte p f j).getLsbD b = true ↔
      ∃ i, covers p i j b ∧ (f.get i).getLsbD (b - (p.cfgField.get i).start) = true := by
  simp only [packByte_getLsbD, List.any_eq_true, Bool.and_eq_true, decide_eq_true_eq]
  constructor
  · rintro ⟨i, -, hj, hb⟩
    obtain ⟨-, -, bit⟩ := (placeField_getLsbD_iff ..).mp hb
    exact ⟨i, covers_of_placeField ha hv hj hb, bit⟩
  · rintro ⟨i, ⟨hj, low, high⟩, bit⟩
    obtain ⟨-, -, inByte, -⟩ := admissible_field ha i
    exact ⟨i, Field.mem_all i, hj, (placeField_getLsbD_iff ..).mpr ⟨by omega, low, bit⟩⟩

/-- The bit of a field in the packed byte is the bit of the setting. -/
theorem packByte_getLsbD_of_covers {p : Params} {f : Settings} (ha : p.admissible = true) (hv : validCfg p f = true)
    {i : Field} {j : CfgByte} {b : Nat} (hc : covers p i j b) :
    (packByte p f j).getLsbD b = (f.get i).getLsbD (b - (p.cfgField.get i).start) := by
  rw [Bool.eq_iff_iff, packByte_getLsbD_iff ha hv]
  constructor
  · rintro ⟨k, hk, bit⟩
    exact covers_unique ha hk hc ▸ bit
  · exact fun bit => ⟨i, hc, bit⟩

/-- Extracting a field's range from its packed byte gives the setting (R141). -/
theorem extractField_packByte {p : Params} {f : Settings} (ha : p.admissible = true) (hv : validCfg p f = true)
    {i : Field} {j : CfgByte} {s n : Nat} (hr : p.cfgField.get i = ⟨j, s, n⟩) (hs : s ≤ 7) (hn : n ≤ 8 - s) :
    extractField (packByte p f j) s n hs hn = f.get i := by
  apply BitVec.eq_of_getLsbD_eq
  intro k _
  rw [extractField_getLsbD]
  by_cases hk : k < n
  · have hc : covers p i j (s + k) := by rw [covers, hr]; exact ⟨rfl, by simp, by simpa⟩
    simp [hk, packByte_getLsbD_of_covers ha hv hc, hr]
  · have beyond : (p.cfgField.get i).width ≤ k := by rw [hr]; exact not_lt.mp hk
    simp [hk, setting_getLsbD_of_width_le ha hv beyond]

/-- Settles O22; packing is injective because every field reads back. -/
theorem packedFieldsReadBack : Obligations.PackedFieldsReadBack := by
  intro p ha
  have readBack (f : Settings) (i : Field) (hs : (p.cfgField.get i).start ≤ 7)
      (hn : (p.cfgField.get i).width ≤ 8 - (p.cfgField.get i).start) (hv : validCfg p f = true) :
      extractField ((packCfg p f).get (p.cfgField.get i).byte) (p.cfgField.get i).start (p.cfgField.get i).width hs hn
        = f.get i := by
    rw [packCfg_get]
    exact extractField_packByte ha hv rfl hs hn
  refine ⟨readBack, fun f j b hv uncovered => ?_, fun f g hf hg same => perField_ext fun i => ?_⟩
  · rw [packCfg_get, ← Bool.not_eq_true, packByte_getLsbD_iff ha hv]
    rintro ⟨i, hc, -⟩
    exact uncovered i hc
  · obtain ⟨-, wide, inByte, -⟩ := admissible_field ha i
    rw [← readBack f i (by omega) (by omega) hf, same, readBack g i _ _ hg]

/-- A byte is its high nibble above its low nibble, the nibbles as `Extract` gives them. -/
theorem eq_shiftLeft_or_extractField (c : Byte) (h0 : 0 ≤ 7) (hl : 4 ≤ 8 - 0) (h4 : 4 ≤ 7) (hh : 4 ≤ 8 - 4) :
    c = (extractField c 4 4 h4 hh <<< 4) ||| extractField c 0 4 h0 hl := by
  apply BitVec.eq_of_getLsbD_eq
  intro b hb
  rw [BitVec.getLsbD_or, BitVec.getLsbD_shiftLeft, extractField_getLsbD, extractField_getLsbD]
  by_cases low : b < 4
  · simp [low]
  · have above : 4 + (b - 4) = b := by omega
    have inside : b - 4 < 4 := by omega
    simp [low, above, inside, hb]

/-- Settles O23: both nibbles read back, since the source fixes the two ranges (R27), and a byte is its nibbles. -/
theorem thirdByteIsSliderSizes : Obligations.ThirdByteIsSliderSizes := by
  intro p f ha hv
  obtain ⟨range1, range2⟩ := admissible_slides ha
  have fits1 : f.slide1Size.toNat < 16 := by simpa [PerField.get, range1] using validCfg_fits ha hv .slide1Size
  have fits2 : f.slide2Size.toNat < 16 := by simpa [PerField.get, range2] using validCfg_fits ha hv .slide2Size
  have low := extractField_packByte ha hv (i := .slide1Size) range1 (by omega) (by omega)
  have high := extractField_packByte ha hv (i := .slide2Size) range2 (by omega) (by omega)
  have joined := eq_shiftLeft_or_extractField (packByte p f .cfg3) (by omega) (by omega) (by omega) (by omega)
  rw [low, high] at joined
  exact ⟨fits1, fits2, joined, fun _ _ => low, fun _ _ => high⟩

/-! ### The fields of the first byte -/

/-- The fields of one byte (R26). -/
def fieldsOf (j : CfgByte) : Finset Field := Field.all.toFinset.filter (·.home = j)

/-- The bits of a field's range, within its byte. -/
def bitsOf (p : Params) (i : Field) : Finset Nat :=
  Finset.Ico (p.cfgField.get i).start ((p.cfgField.get i).start + (p.cfgField.get i).width)

/-- The bits of a byte that belong to some field. -/
def coveredBits (p : Params) (j : CfgByte) : Finset Nat := (fieldsOf j).biUnion (bitsOf p)

/-- The fields of a byte are those whose home it is. -/
theorem mem_fieldsOf {i : Field} {j : CfgByte} : i ∈ fieldsOf j ↔ i.home = j := by
  simp [fieldsOf, Field.mem_all]

/-- Covering a bit, with the byte of R26 and the range as a set. -/
theorem covers_iff_mem_bitsOf {p : Params} (ha : p.admissible = true) {i : Field} {j : CfgByte} {b : Nat} :
    covers p i j b ↔ i ∈ fieldsOf j ∧ b ∈ bitsOf p i := by
  rw [covers, (admissible_field ha i).1, mem_fieldsOf, bitsOf, Finset.mem_Ico]

/-- The covered bits are those that some field covers. -/
theorem mem_coveredBits {p : Params} (ha : p.admissible = true) {j : CfgByte} {b : Nat} :
    b ∈ coveredBits p j ↔ ∃ i, covers p i j b := by
  simp only [coveredBits, Finset.mem_biUnion, covers_iff_mem_bitsOf ha]

/-- Fields lie within their byte (R28 b). -/
theorem coveredBits_subset {p : Params} (ha : p.admissible = true) (j : CfgByte) :
    coveredBits p j ⊆ Finset.range 8 := by
  intro b hb
  obtain ⟨i, -, -, high⟩ := (mem_coveredBits ha).mp hb
  obtain ⟨-, -, inByte, -⟩ := admissible_field ha i
  exact Finset.mem_range.mpr (by omega)

/-- Fields of one byte are disjoint (R28 c), so they cover as many bits as they are wide in all. -/
theorem card_coveredBits {p : Params} (ha : p.admissible = true) (j : CfgByte) :
    (coveredBits p j).card = ∑ i ∈ fieldsOf j, (p.cfgField.get i).width := by
  have disjoint : (fieldsOf j : Set Field).PairwiseDisjoint (bitsOf p) := by
    intro i hi k hk hne
    refine Finset.disjoint_left.mpr fun b hbi hbk => hne ?_
    exact covers_unique ha ((covers_iff_mem_bitsOf ha).mpr ⟨hi, hbi⟩) ((covers_iff_mem_bitsOf ha).mpr ⟨hk, hbk⟩)
  rw [coveredBits, Finset.card_biUnion disjoint]
  simp [bitsOf]

/-- When the fields of a byte leave one bit over, exactly that bit belongs to no field. -/
theorem exists_single_uncovered {p : Params} (ha : p.admissible = true) {j : CfgByte}
    (hc : (coveredBits p j).card = 7) :
    ∃ b, b < 8 ∧ (∀ i, ¬ covers p i j b) ∧ ∀ c, c < 8 → c ≠ b → ∃ i, covers p i j c := by
  have left : (Finset.range 8 \ coveredBits p j).card = 1 := by
    rw [Finset.card_sdiff_of_subset (coveredBits_subset ha j), hc, Finset.card_range]
  obtain ⟨b, hb⟩ := Finset.card_eq_one.mp left
  have uncovered (c : Nat) : c = b ↔ c < 8 ∧ ¬ ∃ i, covers p i j c := by
    rw [← Finset.mem_singleton, ← hb, Finset.mem_sdiff, Finset.mem_range, mem_coveredBits ha]
  obtain ⟨inByte, none⟩ := (uncovered b).mp rfl
  refine ⟨b, inByte, not_exists.mp none, fun c hc8 hcb => ?_⟩
  by_contra absent
  exact hcb ((uncovered c).mpr ⟨hc8, absent⟩)

/-- When the fields of a byte are eight bits wide in all, every bit belongs to a field. -/
theorem exists_covers_of_card {p : Params} (ha : p.admissible = true) {j : CfgByte}
    (hc : (coveredBits p j).card = 8) {b : Nat} (hb : b < 8) : ∃ i, covers p i j b := by
  have full : coveredBits p j = Finset.range 8 :=
    Finset.eq_of_subset_of_card_le (coveredBits_subset ha j) (by rw [hc, Finset.card_range])
  exact (mem_coveredBits ha).mp (full ▸ Finset.mem_range.mpr hb)

/-- R26: seven fields share the first byte. -/
theorem card_fieldsOf_cfg1 : (fieldsOf .cfg1).card = 7 := rfl

/-- The seven fields of the first byte share eight bits: one that is not one bit wide takes two of them, leaves one to
each of the others, and none is left over. -/
theorem widths_of_width_ne_one {p : Params} (ha : p.admissible = true) {i : Field} (hi : i ∈ fieldsOf .cfg1)
    (hw : (p.cfgField.get i).width ≠ 1) :
    (p.cfgField.get i).width = 2 ∧ (∀ k ∈ (fieldsOf .cfg1).erase i, (p.cfgField.get k).width = 1) ∧
      (coveredBits p .cfg1).card = 8 := by
  have positive (k : Field) : 1 ≤ (p.cfgField.get k).width := (admissible_field ha k).2.1
  have total := card_coveredBits ha .cfg1
  have atMost : (coveredBits p .cfg1).card ≤ 8 := Finset.card_le_card (coveredBits_subset ha .cfg1)
  have split := Finset.add_sum_erase _ (fun k => (p.cfgField.get k).width) hi
  have six : ∑ k ∈ (fieldsOf .cfg1).erase i, 1 = 6 := by
    rw [← Finset.card_eq_sum_ones, Finset.card_erase_of_mem hi, card_fieldsOf_cfg1]
  have others : ∑ k ∈ (fieldsOf .cfg1).erase i, 1 ≤ ∑ k ∈ (fieldsOf .cfg1).erase i, (p.cfgField.get k).width :=
    Finset.sum_le_sum fun k _ => positive k
  have wide := positive i
  have ones := (Finset.sum_eq_sum_iff_of_le fun k _ => positive k).mp (show
    ∑ k ∈ (fieldsOf .cfg1).erase i, 1 = ∑ k ∈ (fieldsOf .cfg1).erase i, (p.cfgField.get k).width by omega)
  exact ⟨by omega, fun k hk => (ones k hk).symm, by omega⟩

/-- Settles O25: either all seven fields are one bit wide, or one is wider and takes the eighth bit. -/
theorem firstByteFieldWidths : Obligations.FirstByteFieldWidths := by
  intro p ha
  by_cases allOne : ∀ i : Field, i.home = .cfg1 → (p.cfgField.get i).width = 1
  · have ones : ∀ i ∈ fieldsOf .cfg1, (p.cfgField.get i).width = 1 := fun i hi => allOne i (mem_fieldsOf.mp hi)
    have seven : (coveredBits p .cfg1).card = 7 := by
      rw [card_coveredBits ha, Finset.sum_congr rfl ones, ← Finset.card_eq_sum_ones, card_fieldsOf_cfg1]
    exact .inl ⟨allOne, exists_single_uncovered ha seven⟩
  · push Not at allOne
    obtain ⟨i, hi, wider⟩ := allOne
    obtain ⟨two, ones, eight⟩ := widths_of_width_ne_one ha (mem_fieldsOf.mpr hi) wider
    refine .inr ⟨i, hi, two, fun k hk hne => ?_, fun b hb => exists_covers_of_card ha eight hb⟩
    exact ones k (Finset.mem_erase.mpr ⟨hne, mem_fieldsOf.mpr hk⟩)

end Sys2Proof.Machine
end

section
/-! PROOFS of the memory family: the request a command makes, alone and answered late, and the histories that no step
reads. -/

namespace Sys2Proof.Machine

open Sys2Proof.Safety Sys2Proof.Spec

/-! ### The step, the other cases -/

/-- With a request outstanding a step settles it (R71). -/
theorem step_of_outstanding {s : State} {req : TReq} (hp : s.pending = some req) : step s = .next s.settle := by
  simp only [step, hp]

/-- With nothing outstanding a presented reset is taken (R216). -/
theorem step_of_reset {s : State} {rest : List HostInput} (hp : s.pending = none) (hi : s.hostInputs = .rst :: rest) :
    step s = .next (s.setHostInputs rest).takeReset := by
  simp only [step, hp, hi]

/-- With nothing outstanding a packet that is no command is answered `IllegalCommand` (R190). -/
theorem step_of_illegal_packet {s : State} {packet : List Byte} {rest : List HostInput} {e : DecodeError}
    (hp : s.pending = none) (hi : s.hostInputs = .command packet :: rest) (hd : decode packet = .error e) :
    step s = .next (s.setHostInputs rest).answerIllegal := by
  simp only [step, hp, hi, hd]

/-- Settles O6: the step settles the request, and with no answer that changes nothing. -/
theorem waitingBlockTakesNothing : Obligations.WaitingBlockTakesNothing := by
  intro s req hp ha
  rw [step_of_outstanding hp, State.settle_waiting ha]

/-- Settles O7: the event and the response are those of an answered request, read off for a write and for a read. -/
theorem lateAnswerCompletesCommand : Obligations.LateAnswerCompletesCommand := by
  intro s ans rest ha
  constructor
  · intro dev reg n data hp
    rw [step_of_outstanding hp, State.settle_answered hp ha]
    rfl
  · intro dev reg n hp
    rw [step_of_outstanding hp, State.settle_answered hp ha]
    rfl

/-! ### What each kind of command does -/

/-- A command is a pure one, a transaction or an `INIT` (R17). -/
theorem isPure_or_isTransaction_or_init (i : Instr) :
    i.isPure = true ∨ i.isTransaction = true ∨ ∃ rsv1 a rsv2 tw tr, i = .init rsv1 a rsv2 tw tr := by
  cases i with
  | init rsv1 a rsv2 tw tr => exact .inr (.inr ⟨rsv1, a, rsv2, tw, tr, rfl⟩)
  | wrCfg | wrThrKey | wrThrSlp | rdStatus => exact .inr (.inl rfl)
  | _ => exact .inl rfl

/-- A packet a pure command can answer: `OK` with its payload length of R96, or `PreconditionViolated`. -/
def PurePacket (i : Instr) (packet : List Byte) : Prop :=
  (∃ payload : List Byte, packet = 0x00#8 :: payload ∧ payload.length = okPayload i) ∨ packet = [0x03#8]

/-- In every state with the parameters `p` the command sends one and the same packet, and does nothing else. -/
def SendsOnly (p : Params) (i : Instr) : Prop :=
  ∃ packet, PurePacket i packet ∧ ∀ s : State, s.params = p → exec i s = .next (s.send packet)

/-- A command that answers `OK` with a payload of its length. -/
theorem SendsOnly.of_ok {p : Params} {i : Instr} (payload : List Byte) (hl : payload.length = okPayload i)
    (h : ∀ s : State, s.params = p → exec i s = .next (s.respondOk payload)) : SendsOnly p i :=
  ⟨_, .inl ⟨payload, rfl, hl⟩, h⟩

/-- A command whose check fails. -/
theorem SendsOnly.of_refused {p : Params} {i : Instr}
    (h : ∀ s : State, s.params = p → exec i s = .next (s.raise .preconditionViolated)) : SendsOnly p i :=
  ⟨_, .inr rfl, h⟩

/-- A pure command sends one packet, which its operands and the parameters fix (R171). -/
theorem sendsOnly_of_isPure {i : Instr} (p : Params) (hi : i.isPure = true) : SendsOnly p i := by
  cases i with
  | init | wrCfg | wrThrKey | wrThrSlp | rdStatus => cases hi
  | encThrSlp v => exact .of_ok (thrSleepEntry v) rfl fun _ _ => rfl
  | decCorr st => exact .of_ok [correctionFlag st] rfl fun _ _ => rfl
  | decWrf st => exact .of_ok [writeFlag st] rfl fun _ _ => rfl
  | extract b sb n =>
    by_cases h : sb.toNat ≤ 7 ∧ n.toNat ≤ 8 - sb.toNat
    · exact .of_ok [extractField b sb.toNat n.toNat h.1 h.2] rfl fun s _ => by
        simp only [exec, execExtract, h, and_self, dite_true]
    · exact .of_refused fun s _ => by simp only [exec, execExtract, h, dite_false]
  | encThrKey k v =>
    by_cases h : keyTargetLegal k = true
    · exact .of_ok (thrKeyEntry k v) rfl fun s _ => by simp only [exec, execEncThrKey, h, if_true]
    · exact .of_refused fun s _ => by simp only [exec, execEncThrKey, h, if_false, Bool.false_eq_true]
  | decThr ib b1 b2h b2l =>
    by_cases h : decThrLegal ib b2l = true
    · exact .of_ok _ rfl fun s _ => by simp only [exec, execDecThr, h, if_true]; rfl
    · exact .of_refused fun s _ => by simp only [exec, execDecThr, h, if_false, Bool.false_eq_true]
  | packCfg f =>
    by_cases h : validCfg p f = true
    · exact .of_ok (packCfg p f).bytes rfl fun s hs => by simp only [exec, execPackCfg, hs, h, if_true]
    · exact .of_refused fun s hs => by simp only [exec, execPackCfg, hs, h, if_false, Bool.false_eq_true]
  | decSlt st ix =>
    cases h : sliderOf ix with
    | some k => exact .of_ok [sliderTouched p st k] rfl fun s hs => by simp only [exec, execDecSlt, hs, h]
    | none => exact .of_refused fun s _ => by simp only [exec, execDecSlt, h]
  | decKey st ix =>
    cases h : keyOf ix with
    | some k => exact .of_ok [keyPressed p st k] rfl fun s hs => by simp only [exec, execDecKey, hs, h]
    | none => exact .of_refused fun s _ => by simp only [exec, execDecKey, h]
  | decPos st ix =>
    cases h : sliderOf ix with
    | some k => exact .of_ok [sliderPosition st k] rfl fun s _ => by simp only [exec, execDecPos, h]
    | none => exact .of_refused fun s _ => by simp only [exec, execDecPos, h]

/-- A per-key threshold entry in plain arithmetic (R120 to R122). -/
theorem thrKeyEntry_eq (k : Byte) (v : Magnitude) :
    thrKeyEntry k v = [BitVec.ofNat 8 (0xC0 + k.toNat), BitVec.ofNat 8 ((min (max v.toInt 8) 999).toNat % 256),
      BitVec.ofNat 8 ((min (max v.toInt 8) 999).toNat / 256 * 16)] := by
  rw [thrKeyEntry, thrData_clamped, thrIndex_eq]
  rfl

/-- The sleep threshold entry in plain arithmetic (R120, R121). -/
theorem thrSleepEntry_eq (v : Magnitude) :
    thrSleepEntry v = [0xD0#8, BitVec.ofNat 8 ((min (max v.toInt 0) 999).toNat % 256),
      BitVec.ofNat 8 ((min (max v.toInt 0) 999).toNat / 256 * 16)] := by
  rw [thrSleepEntry, thrData_clamped]
  rfl

/-- The request of `WR_THR_KEY` carries the entry that `ENC_THR_KEY` answers. -/
theorem requestOf_wrThrKey (p : Params) (a : BusAddr) (k : Byte) (v : Magnitude) :
    requestOf p a (.wrThrKey k v) = some (.wr a p.regAddrSentinel 3 (thrKeyEntry k v)) := by
  rw [thrKeyEntry_eq, requestOf]

/-- The request of `WR_THR_SLP` carries the entry that `ENC_THR_SLP` answers. -/
theorem requestOf_wrThrSlp (p : Params) (a : BusAddr) (v : Magnitude) :
    requestOf p a (.wrThrSlp v) = some (.wr a p.regAddrSentinel 3 (thrSleepEntry v)) := by
  rw [thrSleepEntry_eq, requestOf]

/-- Every transaction command has a request (R55). -/
theorem exists_requestOf {i : Instr} (p : Params) (a : BusAddr) (hi : i.isTransaction = true) :
    ∃ req, requestOf p a i = some req := by
  cases i with
  | wrCfg | wrThrKey | wrThrSlp | rdStatus => exact ⟨_, rfl⟩
  | _ => cases hi

/-- The request of a command with legal operands is one the block can make, at the address given (R51, R56). -/
theorem requestOf_legal {i : Instr} {p : Params} {a : BusAddr} {req : TReq} (hq : requestOf p a i = some req)
    (hw : i.wellFormed p = true) : requestLegal p req = true ∧ requestDev req = a := by
  cases i with
  | wrCfg f =>
    cases hq
    simp [requestLegal, requestDev, writeGroup, CfgGroup.bytes]
  | wrThrKey k v =>
    cases (requestOf_wrThrKey p a k v).symm.trans hq
    have three : (thrKeyEntry k v).length = 3 := rfl
    simp [requestLegal, requestDev, writeGroup_thrKeyEntry v hw, three]
  | wrThrSlp v =>
    cases (requestOf_wrThrSlp p a v).symm.trans hq
    have three : (thrSleepEntry v).length = 3 := rfl
    simp [requestLegal, requestDev, writeGroup_thrSleepEntry v, three]
  | rdStatus =>
    cases hq
    simp [requestLegal, requestDev]
  | _ => cases hq

/-- A command that has a request makes it when its operands and the handle pass their checks, in that order; otherwise
it sends the error of the check that fails (R166 to R169, R195). -/
theorem exec_of_requestOf {i : Instr} {s : State} {req : TReq} (hq : requestOf s.params s.busAddr i = some req) :
    exec i s = .next (if i.wellFormed s.params = true then s.withHandle (State.transact req) else s.send [0x03#8]) := by
  cases i with
  | wrCfg f => cases hq; rfl
  | wrThrKey k v => cases (requestOf_wrThrKey _ _ k v).symm.trans hq; rfl
  | wrThrSlp v => cases (requestOf_wrThrSlp _ _ v).symm.trans hq; rfl
  | rdStatus => cases hq; rfl
  | _ => cases hq

/-- A transaction command past its checks makes its request. -/
theorem exec_transacts {i : Instr} {s : State} {req : TReq} (hq : requestOf s.params s.busAddr i = some req)
    (hw : i.wellFormed s.params = true) (hr : s.hstate = .ready) : exec i s = .next (s.transact req) := by
  rw [exec_of_requestOf hq, if_pos hw, State.withHandle_ready hr]

/-- A transaction command that fails a check sends one error byte and does nothing else (R170, R189, R197). -/
theorem exec_transaction_refused {i : Instr} {s : State} (hi : i.isTransaction = true)
    (failed : ¬ (i.wellFormed s.params = true ∧ s.hstate = .ready)) :
    exec i s = .next (s.send [0x03#8]) ∨ exec i s = .next (s.send [0x05#8]) := by
  obtain ⟨req, hq⟩ := exists_requestOf s.params s.busAddr hi
  rw [exec_of_requestOf hq]
  by_cases hw : i.wellFormed s.params = true
  · rw [if_pos hw, State.withHandle_not_ready fun hr => failed ⟨hw, hr⟩]
    exact .inr rfl
  · rw [if_neg hw]
    exact .inl rfl

/-- What an `INIT` sends: one status byte (R165). -/
theorem exec_init_responses {rsv1 : BitVec 1} {a : BusAddr} {rsv2 : BitVec 6} {tw tr : Bool} {s t : State}
    (h : exec (.init rsv1 a rsv2 tw tr) s = .next t) :
    t.responses = s.responses ++ [[0x00#8]] ∨ t.responses = s.responses ++ [[0x01#8]] ∨
      t.responses = s.responses ++ [[0x03#8]] := by
  simp only [exec, execInit, Host.Outcome.next.injEq] at h
  subst h
  split
  · exact .inr (.inr rfl)
  · split
    · exact .inr (.inr rfl)
    · split
      · exact .inr (.inl rfl)
      · exact .inl rfl

/-! ### One request, one response -/

/-- Settles O36: the request is the command's by `requestOf`, and with no answer making it only sets `pending`. -/
theorem unansweredRequestWaits : Obligations.UnansweredRequestWaits := by
  intro i s a hi hw hr hd ha
  obtain ⟨req, hq⟩ := exists_requestOf s.params a hi
  obtain ⟨legal, own⟩ := requestOf_legal hq hw
  have waits : exec i s = .next { s with pending := some req } := by
    rw [exec_transacts (State.busAddr_of_some hd ▸ hq) hw hr, State.transact_waiting req ha]
  exact ⟨req, hq, waits, legal, own⟩

/-- Settles O52: both runs are `transact` of the one request, from the state that holds the answer. -/
theorem lateAnswerEndsAsAtOnce : Obligations.LateAnswerEndsAsAtOnce := by
  intro i s a ans rest hi hw hr _ ha
  obtain ⟨req, hq⟩ := exists_requestOf s.params s.busAddr hi
  have waiting : (s.transact req).pending = some req := by rw [State.transact_waiting req ha]
  have late : step { s.transact req with answers := ans :: rest } =
      .next (({ s with answers := ans :: rest } : State).transact req) := by
    rw [← State.settle_late req (ans :: rest) ha]
    exact step_of_outstanding waiting
  refine ⟨s.transact req, _, exec_transacts hq hw hr, by simp [waiting], late, exec_transacts hq hw hr, ?_⟩
  rw [State.transact_answered req rfl]

/-- A request shows as one new event, or as the outstanding request. -/
theorem transact_event_or_pending (req : TReq) (s : State) :
    ((s.transact req).pending = none ∧ ∃ ev, (s.transact req).events = s.events ++ [ev]) ∨
    ((s.transact req).pending.isSome = true ∧ (s.transact req).events = s.events) := by
  cases ha : s.answers with
  | nil => rw [State.transact_waiting req ha]; exact .inr ⟨rfl, rfl⟩
  | cons ans rest => rw [State.transact_answered req ha]; exact .inl ⟨rfl, _, rfl⟩

/-- A command that is no transaction leaves the transport alone (R55, R172). -/
theorem Effect.transport_of_not_transaction {i : Instr} {s t : State} (h : Effect i s t)
    (hi : ¬ i.isTransaction = true) :
    t.pending = s.pending ∧ t.events = s.events ∧ t.answers = s.answers := by
  cases h with
  | answers | refuses | initFails | initSucceeds => exact ⟨rfl, rfl, rfl⟩
  | transacts _ transaction => exact absurd transaction hi

/-- Settles O45: a request is made only by a transaction past its checks; one that fails a check sends an error byte,
and every other command leaves the transport alone. -/
theorem oneRequestPerTransaction : Obligations.OneRequestPerTransaction := by
  intro i s t hp h
  constructor
  · rintro ⟨hi, hw, hr⟩
    obtain ⟨req, hq⟩ := exists_requestOf s.params s.busAddr hi
    cases h.symm.trans (exec_transacts hq hw hr)
    exact transact_event_or_pending req s
  · intro unmade
    by_cases hi : i.isTransaction = true
    · rcases exec_transaction_refused hi fun passed => unmade ⟨hi, passed⟩ with refused | refused
      all_goals
        cases h.symm.trans refused
        exact ⟨hp, rfl, rfl⟩
    · obtain ⟨pending, events, answers⟩ := (exec_effect h).transport_of_not_transaction hi
      exact ⟨pending.trans hp, events, answers⟩

/-- An answer to a command's request is sent as `OK` with the payload of R96, or as `TransportFailure`. -/
theorem packetOf_requestOf {i : Instr} {p : Params} {a : BusAddr} {req : TReq} (hq : requestOf p a i = some req)
    (ans : TAns) :
    (∃ payload : List Byte, State.packetOf ans req = 0x00#8 :: payload ∧ payload.length = okPayload i) ∨
      State.packetOf ans req = [0x02#8] := by
  cases hok : ans.ok with
  | false => cases req <;> exact .inr (by simp [State.packetOf, hok])
  | true =>
    cases i with
    | wrCfg | wrThrKey | wrThrSlp => cases hq; exact .inl ⟨[], by simp [State.packetOf, hok], rfl⟩
    | rdStatus => cases hq; exact .inl ⟨ans.data.bytes, by simp [State.packetOf, hok], rfl⟩
    | _ => cases hq

/-- Settles O40, kind of command by kind of command. -/
theorem everyCommandGetsOneResponse : Obligations.EveryCommandGetsOneResponse := by
  intro i s t h
  rcases isPure_or_isTransaction_or_init i with hi | hi | ⟨rsv1, a, rsv2, tw, tr, rfl⟩
  · obtain ⟨packet, form, sends⟩ := sendsOnly_of_isPure s.params hi
    cases h.symm.trans (sends s rfl)
    rcases form with ⟨payload, rfl, hl⟩ | rfl
    · exact .inl ⟨payload, rfl, hl⟩
    · exact .inr (.inl ⟨0x03#8, rfl, by decide⟩)
  · by_cases passed : i.wellFormed s.params = true ∧ s.hstate = .ready
    · obtain ⟨req, hq⟩ := exists_requestOf s.params s.busAddr hi
      cases h.symm.trans (exec_transacts hq passed.1 passed.2)
      cases ha : s.answers with
      | nil => rw [State.transact_waiting req ha]; exact .inr (.inr ⟨rfl, rfl, rfl⟩)
      | cons ans rest =>
        rw [State.transact_answered req ha]
        rcases packetOf_requestOf hq ans with ⟨payload, hpacket, hl⟩ | hpacket
        · exact .inl ⟨payload, by simp [hpacket], hl⟩
        · exact .inr (.inl ⟨0x02#8, by simp [hpacket], by decide⟩)
    · rcases exec_transaction_refused hi passed with refused | refused
      · cases h.symm.trans refused
        exact .inr (.inl ⟨0x03#8, rfl, by decide⟩)
      · cases h.symm.trans refused
        exact .inr (.inl ⟨0x05#8, rfl, by decide⟩)
  · rcases exec_init_responses h with sent | sent | sent
    · exact .inl ⟨[], sent, rfl⟩
    · exact .inr (.inl ⟨0x01#8, sent, by decide⟩)
    · exact .inr (.inl ⟨0x03#8, sent, by decide⟩)

/-! ### The histories -/

/-- The state with earlier responses and events before its own. -/
def State.afterHistory (r : List (List Byte)) (e : List Ev) (s : State) : State :=
  { s with responses := r ++ s.responses, events := e ++ s.events }

/-- The state with nothing sent or recorded yet. -/
def State.forgetHistory (s : State) : State := { s with responses := [], events := [] }

section Commutes

variable (r : List (List Byte)) (e : List Ev) (s : State)

/-- The parameters are no history. -/
theorem afterHistory_params : (s.afterHistory r e).params = s.params := rfl

/-- A packet is sent at the end, whatever came before. -/
theorem afterHistory_send (packet : List Byte) :
    (s.afterHistory r e).send packet = (s.send packet).afterHistory r e := by
  simp [State.afterHistory, State.send]

/-- An event is recorded at the end, whatever came before. -/
theorem afterHistory_record (ev : Ev) : (s.afterHistory r e).record ev = (s.record ev).afterHistory r e := by
  simp [State.afterHistory, State.record]

/-- Settling a request adds the same to any earlier history. -/
theorem afterHistory_settle : (s.afterHistory r e).settle = s.settle.afterHistory r e := by
  cases ha : s.answers with
  | nil => rw [State.settle_waiting ha, State.settle_waiting (s := s.afterHistory r e) ha]
  | cons ans rest =>
    cases hp : s.pending with
    | none => simp [State.settle, hp, State.afterHistory]
    | some req =>
      rw [State.settle_answered hp ha, State.settle_answered (s := s.afterHistory r e) hp ha, ← afterHistory_send,
        ← afterHistory_record]
      rfl

/-- So does making one behind the check of the handle. -/
theorem afterHistory_withHandle_transact (req : TReq) :
    (s.afterHistory r e).withHandle (State.transact req) = (s.withHandle (State.transact req)).afterHistory r e := by
  by_cases hr : s.hstate = .ready
  · rw [State.withHandle_ready hr, State.withHandle_ready (s := s.afterHistory r e) hr]
    exact afterHistory_settle r e (s.setPending (some req))
  · rw [State.withHandle_not_ready hr, State.withHandle_not_ready (s := s.afterHistory r e) hr, afterHistory_send]

/-- An `INIT` does the same after any earlier history. -/
theorem exec_init_afterHistory {t : State} {rsv1 : BitVec 1} {a : BusAddr} {rsv2 : BitVec 6} {tw tr : Bool}
    (h : exec (.init rsv1 a rsv2 tw tr) s = .next t) :
    exec (.init rsv1 a rsv2 tw tr) (s.afterHistory r e) = .next (t.afterHistory r e) := by
  cases h
  simp only [exec, execInit, State.raise_eq_send, State.respondOk_eq_send, apply_ite (State.afterHistory r e),
    ← afterHistory_send]
  rfl

/-- A command does the same after any earlier history. -/
theorem exec_afterHistory {i : Instr} {t : State} (h : exec i s = .next t) :
    exec i (s.afterHistory r e) = .next (t.afterHistory r e) := by
  rcases isPure_or_isTransaction_or_init i with hi | hi | ⟨rsv1, a, rsv2, tw, tr, rfl⟩
  · obtain ⟨packet, -, sends⟩ := sendsOnly_of_isPure s.params hi
    cases h.symm.trans (sends s rfl)
    rw [sends (s.afterHistory r e) rfl, afterHistory_send]
  · obtain ⟨req, hq⟩ := exists_requestOf s.params s.busAddr hi
    cases h.symm.trans (exec_of_requestOf hq)
    rw [exec_of_requestOf (s := s.afterHistory r e) hq, afterHistory_params, afterHistory_withHandle_transact,
      afterHistory_send, apply_ite (State.afterHistory r e)]
  · exact exec_init_afterHistory r e s h

/-- A step does the same after any earlier history. -/
theorem step_afterHistory {t : State} (h : step s = .next t) :
    step (s.afterHistory r e) = .next (t.afterHistory r e) := by
  cases hp : s.pending with
  | some req =>
    cases h.symm.trans (step_of_outstanding hp)
    rw [step_of_outstanding (s := s.afterHistory r e) hp, afterHistory_settle]
  | none =>
    cases hi : s.hostInputs with
    | nil =>
      cases h.symm.trans (step_of_nothing_presented hp hi)
      exact step_of_nothing_presented hp hi
    | cons input rest =>
      cases input with
      | rst =>
        cases h.symm.trans (step_of_reset hp hi)
        exact step_of_reset hp hi
      | command packet =>
        cases hd : decode packet with
        | error err =>
          cases h.symm.trans (step_of_illegal_packet hp hi hd)
          rw [step_of_illegal_packet (s := s.afterHistory r e) hp hi hd]
          exact congrArg _ (afterHistory_send r e (s.setHostInputs rest) _)
        | ok i =>
          rw [step_of_command hp hi hd] at h
          rw [step_of_command (s := s.afterHistory r e) hp hi hd]
          exact exec_afterHistory r e (s.setHostInputs rest) h

end Commutes

/-- Settles O47: the step from the state without histories adds what the step adds after any history. -/
theorem historyIsNeverRead : Obligations.HistoryIsNeverRead := by
  intro s t h
  obtain ⟨u, hu⟩ := step_answers s.forgetHistory
  have after (r : List (List Byte)) (e : List Ev) :
      step { s with responses := r, events := e } = .next (u.afterHistory r e) := by
    simpa [State.afterHistory, State.forgetHistory] using step_afterHistory r e _ hu
  cases h.symm.trans (after s.responses s.events)
  exact ⟨u.responses, u.events, rfl, rfl, after⟩

end Sys2Proof.Machine
end

section
/-! PROOFS of the encoding family: the encoder and the decoder undo each other, the packets that are commands, and the
packet formats in plain arithmetic. -/

namespace Sys2Proof

open Sys2Proof.Spec

/-! ### Bit fields of a packet -/

/-- A concatenation in plain arithmetic. -/
theorem toNat_append_eq_add {n m : Nat} (x : BitVec n) (y : BitVec m) :
    (x ++ y).toNat = 2 ^ m * x.toNat + y.toNat := by
  rw [BitVec.toNat_append, ← Nat.shiftLeft_add_eq_or_of_lt y.isLt, Nat.shiftLeft_eq, Nat.mul_comm]

/-- The word with the value of a concatenation is the concatenation. -/
theorem eq_append_of_toNat {n m : Nat} {b : BitVec (n + m)} {x : BitVec n} {y : BitVec m}
    (h : b.toNat = 2 ^ m * x.toNat + y.toNat) : b = x ++ y :=
  BitVec.eq_of_toNat_eq (h.trans (toNat_append_eq_add x y).symm)

/-- The first operand byte of `INIT` is its bit 7 above the address (R83). -/
theorem addressByte_join (b : Byte) : (b.extractLsb' 7 1 ++ b.extractLsb' 0 7 : BitVec 8) = b :=
  BitVec.extractLsb'_append_extractLsb'

/-- The second operand byte of `INIT` is its high six bits above the two capability bits (R83). -/
theorem capabilityByte_join : ∀ b : Byte,
    (b.extractLsb' 2 6 ++ BitVec.ofBool (b.getLsbD 1) ++ BitVec.ofBool (b.getLsbD 0) : BitVec 8) = b := by decide

/-- The three fields of the second operand byte of `INIT` (R83). -/
theorem capabilityByte_fields (rsv2 : BitVec 6) (tw tr : Bool) :
    (rsv2 ++ BitVec.ofBool tw ++ BitVec.ofBool tr : Byte).extractLsb' 2 6 = rsv2 ∧
    (rsv2 ++ BitVec.ofBool tw ++ BitVec.ofBool tr : Byte).getLsbD 1 = tw ∧
    (rsv2 ++ BitVec.ofBool tw ++ BitVec.ofBool tr : Byte).getLsbD 0 = tr := by
  refine ⟨?_, ?_, ?_⟩
  · exact (BitVec.extractLsb'_append_eq_of_le (by omega)).trans BitVec.extractLsb'_append_eq_left
  · simp only [BitVec.getLsbD_append]; simp
  · simp only [BitVec.getLsbD_append]; simp

/-- A magnitude travels low byte first (R87). -/
theorem magnitudeBytes_append (vh vl : Byte) : magnitudeBytes (vh ++ vl) = [vl, vh] := by
  have low : (vh ++ vl : Magnitude).extractLsb' 0 8 = vl := BitVec.extractLsb'_append_eq_right
  have high : (vh ++ vl : Magnitude).extractLsb' 8 8 = vh := BitVec.extractLsb'_append_eq_left
  rw [magnitudeBytes, low, high]

/-! ### Operand bytes to a command and back -/

/-- Format `I` gives the fields back (R83). -/
theorem decodeI_operandBytes (rsv1 : BitVec 1) (a : BusAddr) (rsv2 : BitVec 6) (tw tr : Bool) :
    decodeI (Instr.init rsv1 a rsv2 tw tr).operandBytes = some (.init rsv1 a rsv2 tw tr) := by
  have reserved : (rsv1 ++ a : Byte).extractLsb' 7 1 = rsv1 := BitVec.extractLsb'_append_eq_left
  have address : (rsv1 ++ a : Byte).extractLsb' 0 7 = a := BitVec.extractLsb'_append_eq_right
  obtain ⟨high, write, read⟩ := capabilityByte_fields rsv2 tw tr
  rw [Instr.operandBytes, decodeI, reserved, address, high, write, read]

/-- Format `T3` gives the nibbles back (R89). -/
theorem decodeT3_operandBytes (ib b1 : Byte) (b2h b2l : BitVec 4) :
    decodeT3 (Instr.decThr ib b1 b2h b2l).operandBytes = some (.decThr ib b1 b2h b2l) := by
  have high : (b2h ++ b2l : Byte).extractLsb' 4 4 = b2h := BitVec.extractLsb'_append_eq_left
  have low : (b2h ++ b2l : Byte).extractLsb' 0 4 = b2l := BitVec.extractLsb'_append_eq_right
  rw [Instr.operandBytes, decodeT3, high, low]

/-- Format `KV` gives the magnitude back (R85). -/
theorem decodeKV_magnitudeBytes (mk : Byte → Magnitude → Instr) (k : Byte) (v : Magnitude) :
    decodeKV mk (k :: magnitudeBytes v) = some (mk k v) := by
  rw [magnitudeBytes, decodeKV, magnitude_join]

/-- Format `V` gives the magnitude back (R86). -/
theorem decodeV_magnitudeBytes (mk : Magnitude → Instr) (v : Magnitude) :
    decodeV mk (magnitudeBytes v) = some (mk v) := by
  rw [magnitudeBytes, decodeV, magnitude_join]

/-- A command comes back from its opcode and its operand bytes. -/
theorem decodeOperands_operandBytes (i : Instr) : decodeOperands i.opcode i.operandBytes = some i := by
  cases i with
  | init rsv1 a rsv2 tw tr => exact decodeI_operandBytes rsv1 a rsv2 tw tr
  | decThr ib b1 b2h b2l => exact decodeT3_operandBytes ib b1 b2h b2l
  | encThrKey k v | wrThrKey k v => exact decodeKV_magnitudeBytes _ k v
  | encThrSlp v | wrThrSlp v => exact decodeV_magnitudeBytes _ v
  | extract | packCfg | decCorr | decWrf | decSlt | decKey | decPos | wrCfg | rdStatus => rfl

/-- Two bytes are the bytes of a magnitude (R87). -/
theorem exists_magnitudeBytes_eq : ∀ {l : List Byte}, l.length = 2 → ∃ v, magnitudeBytes v = l
  | [vl, vh], _ => ⟨vh ++ vl, magnitudeBytes_append vh vl⟩

/-- Three bytes are an index and the bytes of a magnitude (R85). -/
theorem exists_cons_magnitudeBytes_eq : ∀ {l : List Byte}, l.length = 3 → ∃ k v, k :: magnitudeBytes v = l
  | [k, vl, vh], _ => ⟨k, vh ++ vl, congrArg (k :: ·) (magnitudeBytes_append vh vl)⟩

/-- Thirteen bytes are thirteen settings (R90). -/
theorem exists_toList_eq : ∀ {l : List Byte}, l.length = 13 → ∃ f : Settings, f.toList = l
  | [f1, f2, f3, f4, f5, f6, f7, f8, f9, f10, f11, f12, f13], _ =>
    ⟨⟨f1, f2, f3, f4, f5, f6, f7, f8, f9, f10, f11, f12, f13⟩, rfl⟩

/-- Six bytes are a snapshot (R91). -/
theorem exists_bytes_eq : ∀ {l : List Byte}, l.length = 6 → ∃ st : Snapshot, st.bytes = l
  | [b0, b1, b2, b3, b4, b5], _ => ⟨⟨b0, b1, b2, b3, b4, b5⟩, rfl⟩

/-- Seven bytes are a snapshot and an index (R92). -/
theorem exists_bytes_append_eq :
    ∀ {l : List Byte}, l.length = 7 → ∃ (st : Snapshot) (ix : Byte), st.bytes ++ [ix] = l
  | [b0, b1, b2, b3, b4, b5, ix], _ => ⟨⟨b0, b1, b2, b3, b4, b5⟩, ix, rfl⟩

/-- As many bytes as an opcode asks for are the operand bytes of one of its commands (R95). -/
theorem exists_operandBytes_eq {c : Opcode} {l : List Byte} (h : l.length = c.operandCount) :
    ∃ i : Instr, i.opcode = c ∧ i.operandBytes = l := by
  cases c with
  | init =>
    match l, h with
    | [b1, b2], _ =>
      refine ⟨.init (b1.extractLsb' 7 1) (b1.extractLsb' 0 7) (b2.extractLsb' 2 6) (b2.getLsbD 1) (b2.getLsbD 0),
        rfl, ?_⟩
      rw [Instr.operandBytes, addressByte_join, capabilityByte_join]
  | decThr =>
    match l, h with
    | [ib, b1, b2], _ =>
      refine ⟨.decThr ib b1 (b2.extractLsb' 4 4) (b2.extractLsb' 0 4), rfl, ?_⟩
      rw [Instr.operandBytes, nibbles_join]
  | extract => match l, h with | [b, s, n], _ => exact ⟨.extract b s n, rfl, rfl⟩
  | encThrKey => obtain ⟨k, v, rfl⟩ := exists_cons_magnitudeBytes_eq h; exact ⟨.encThrKey k v, rfl, rfl⟩
  | wrThrKey => obtain ⟨k, v, rfl⟩ := exists_cons_magnitudeBytes_eq h; exact ⟨.wrThrKey k v, rfl, rfl⟩
  | encThrSlp => obtain ⟨v, rfl⟩ := exists_magnitudeBytes_eq h; exact ⟨.encThrSlp v, rfl, rfl⟩
  | wrThrSlp => obtain ⟨v, rfl⟩ := exists_magnitudeBytes_eq h; exact ⟨.wrThrSlp v, rfl, rfl⟩
  | packCfg => obtain ⟨f, rfl⟩ := exists_toList_eq h; exact ⟨.packCfg f, rfl, rfl⟩
  | wrCfg => obtain ⟨f, rfl⟩ := exists_toList_eq h; exact ⟨.wrCfg f, rfl, rfl⟩
  | decCorr => obtain ⟨st, rfl⟩ := exists_bytes_eq h; exact ⟨.decCorr st, rfl, rfl⟩
  | decWrf => obtain ⟨st, rfl⟩ := exists_bytes_eq h; exact ⟨.decWrf st, rfl, rfl⟩
  | decSlt => obtain ⟨st, ix, rfl⟩ := exists_bytes_append_eq h; exact ⟨.decSlt st ix, rfl, rfl⟩
  | decKey => obtain ⟨st, ix, rfl⟩ := exists_bytes_append_eq h; exact ⟨.decKey st ix, rfl, rfl⟩
  | decPos => obtain ⟨st, ix, rfl⟩ := exists_bytes_append_eq h; exact ⟨.decPos st ix, rfl, rfl⟩
  | rdStatus => exact ⟨.rdStatus, rfl, (List.length_eq_zero_iff.mp h).symm⟩

/-- Only as many operand bytes as the opcode asks for decode (R95, R98). -/
theorem length_of_decodeOperands {i : Instr} :
    ∀ {c : Opcode} {l : List Byte}, decodeOperands c l = some i → l.length = c.operandCount
  | .init, [_, _], _ | .encThrSlp, [_, _], _ | .wrThrSlp, [_, _], _ => rfl
  | .extract, [_, _, _], _ | .encThrKey, [_, _, _], _ | .wrThrKey, [_, _, _], _ | .decThr, [_, _, _], _ => rfl
  | .packCfg, [_, _, _, _, _, _, _, _, _, _, _, _, _], _ | .wrCfg, [_, _, _, _, _, _, _, _, _, _, _, _, _], _ => rfl
  | .decCorr, [_, _, _, _, _, _], _ | .decWrf, [_, _, _, _, _, _], _ => rfl
  | .decSlt, [_, _, _, _, _, _, _], _ | .decKey, [_, _, _, _, _, _, _], _ | .decPos, [_, _, _, _, _, _, _], _ => rfl
  | .rdStatus, [], _ => rfl

/-- Operand bytes decode to the one command that has them: the bytes are some command's, which comes back. -/
theorem decodeOperands_eq_some_iff {c : Opcode} {l : List Byte} {i : Instr} :
    decodeOperands c l = some i ↔ i.opcode = c ∧ i.operandBytes = l := by
  constructor
  · intro h
    obtain ⟨j, rfl, rfl⟩ := exists_operandBytes_eq (length_of_decodeOperands h)
    cases (decodeOperands_operandBytes j).symm.trans h
    exact ⟨rfl, rfl⟩
  · rintro ⟨rfl, rfl⟩
    exact decodeOperands_operandBytes i

/-! ### Packets -/

/-- A packet decodes to a command when it is an opcode of the map and operand bytes that decode (R80, R95). -/
theorem decode_eq_ok_iff {packet : List Byte} {i : Instr} :
    decode packet = .ok i ↔ ∃ c operands, packet = c.code :: operands ∧ decodeOperands c operands = some i := by
  constructor
  · intro h
    cases packet with
    | nil => cases h
    | cons op operands =>
      cases hc : Opcode.ofByte op with
      | none => simp [decode, hc] at h
      | some c =>
        cases hd : decodeOperands c operands with
        | none => simp [decode, hc, hd] at h
        | some j =>
          have same : j = i := by simpa [decode, hc, hd] using h
          exact ⟨c, operands, by rw [Opcode.code_of_ofByte hc], same ▸ hd⟩
  · rintro ⟨c, operands, rfl, hd⟩
    simp [decode, Opcode.ofByte_code, hd]

/-- Settles O8: the operand bytes of a command decode to it. -/
theorem decodeInvertsEncode : Obligations.DecodeInvertsEncode :=
  fun i => decode_eq_ok_iff.mpr ⟨i.opcode, i.operandBytes, rfl, decodeOperands_operandBytes i⟩

/-- Settles O9: a packet that decodes is the opcode and the operand bytes of its command. -/
theorem encodeInvertsDecode : Obligations.EncodeInvertsDecode := by
  intro packet i h
  obtain ⟨c, operands, rfl, hd⟩ := decode_eq_ok_iff.mp h
  obtain ⟨rfl, rfl⟩ := decodeOperands_eq_some_iff.mp hd
  rfl

/-- The table of the statements is the opcode map with its packet lengths (R95). -/
theorem commandTable_eq : commandTable = Opcode.all.map fun c => (c.code, c.packetLength) := rfl

/-- A command packet is an opcode of the map and as many operand bytes as it asks for (R80, R101). -/
theorem isCommandPacket_iff {packet : List Byte} :
    isCommandPacket packet ↔
      ∃ (c : Opcode) (operands : List Byte), packet = c.code :: operands ∧ operands.length = c.operandCount := by
  simp only [isCommandPacket, commandTable_eq, List.mem_map, Opcode.mem_all, true_and, exists_exists_eq_and]
  constructor
  · rintro ⟨c, first, length⟩
    obtain ⟨operands, rfl⟩ := List.head?_eq_some_iff.mp first
    have count : operands.length + 1 = 1 + c.operandCount := length
    exact ⟨c, operands, rfl, by omega⟩
  · rintro ⟨c, operands, rfl, count⟩
    exact ⟨c, rfl, by rw [List.length_cons, Opcode.packetLength, count, Nat.add_comm]⟩

/-- The packets that decode to a command are the command packets (R97). -/
theorem exists_decode_eq_ok_iff {packet : List Byte} : (∃ i, decode packet = .ok i) ↔ isCommandPacket packet := by
  rw [isCommandPacket_iff]
  constructor
  · rintro ⟨i, h⟩
    obtain ⟨c, operands, rfl, hd⟩ := decode_eq_ok_iff.mp h
    exact ⟨c, operands, rfl, length_of_decodeOperands hd⟩
  · rintro ⟨c, operands, rfl, count⟩
    obtain ⟨i, hi⟩ := exists_operandBytes_eq count
    exact ⟨i, decode_eq_ok_iff.mpr ⟨c, operands, rfl, decodeOperands_eq_some_iff.mpr hi⟩⟩

/-- Settles O4: any other packet decodes to an error, and the step answers it with `IllegalCommand`. -/
theorem illegalPacketsExactly : Obligations.IllegalPacketsExactly := by
  refine ⟨fun packet => exists_decode_eq_ok_iff.mpr, fun s packet rest illegal hp hi => ?_⟩
  cases hd : decode packet with
  | ok i => exact absurd (exists_decode_eq_ok_iff.mp ⟨i, hd⟩) illegal
  | error e => exact Machine.step_of_illegal_packet hp hi hd

/-! ### The packet formats in plain arithmetic -/

/-- Settles O10: each packet is the encoding of its command. -/
theorem samplePacketsDecode : Obligations.SamplePacketsDecode :=
  ⟨decodeInvertsEncode (.init 0#1 0x50#7 0#6 true true), decodeInvertsEncode (.extract 0xA0 5 3),
    decodeInvertsEncode (.encThrKey 0 (BitVec.ofInt 16 1200)), decodeInvertsEncode (.decThr 0xC3 0xE7 3#4 0#4),
    decodeInvertsEncode (.decKey ⟨0xC4, 0x01, 0x01, 0x32, 0, 0⟩ 9), decodeInvertsEncode .rdStatus⟩

/-- The second operand byte of `INIT` from the values of its fields (R83). -/
theorem eq_capabilityByte_of_toNat {b : Byte} {rsv2 : BitVec 6} {tw tr : Bool}
    (h : b.toNat = 4 * rsv2.toNat + 2 * tw.toNat + tr.toNat) : b = rsv2 ++ BitVec.ofBool tw ++ BitVec.ofBool tr := by
  apply eq_append_of_toNat (n := 7) (m := 1)
  rw [toNat_append_eq_add, BitVec.toNat_ofBool, BitVec.toNat_ofBool, h]
  omega

/-- Settles O11: a byte with sub-byte fields and a magnitude are the concatenation their arithmetic says, and each
packet is then the encoding of its command. -/
theorem packetsHaveTheirFormats : Obligations.PacketsHaveTheirFormats := by
  refine ⟨fun rsv1 a rsv2 tw tr b1 b2 h1 h2 => ?_, fun _ _ _ => rfl, fun k vl vh v hv => ?_,
    fun ib b1 b2 b2h b2l h => ?_, fun _ => ⟨rfl, rfl⟩, fun _ _ _ _ _ _ _ => ⟨rfl, rfl, rfl, rfl, rfl⟩, rfl⟩
  · cases eq_append_of_toNat (n := 1) (m := 7) h1
    cases eq_capabilityByte_of_toNat h2
    exact decodeInvertsEncode (.init rsv1 a rsv2 tw tr)
  · cases eq_append_of_toNat (n := 8) (m := 8) hv
    exact ⟨rfl, rfl, rfl, rfl⟩
  · cases eq_append_of_toNat (n := 4) (m := 4) h
    exact decodeInvertsEncode (.decThr ib b1 b2h b2l)

/-- The signed value of two bytes, the high one with the sign (R87). -/
theorem toInt_append_bytes (vh vl : Byte) :
    (vh ++ vl : Magnitude).toInt = if vh.toNat < 128 then (vl.toNat : Int) + 256 * vh.toNat
      else (vl.toNat : Int) + 256 * vh.toNat - 65536 := by
  have joined : (vh ++ vl : Magnitude).toInt = 2 ^ 8 * vh.toInt + vl.toNat := BitVec.toInt_append
  rw [joined, BitVec.toInt_eq_toNat_cond]
  split <;> split <;> omega

/-- Settles O12: the magnitude is its high byte above its low byte. -/
theorem magnitudeIsSignedLittleEndian : Obligations.MagnitudeIsSignedLittleEndian :=
  fun _ vl vh => ⟨vh ++ vl, toInt_append_bytes vh vl, rfl, rfl, rfl, rfl⟩

end Sys2Proof

namespace Sys2Proof.Machine

/-! ### `PACK_DEFAULT` -/

/-- The default settings are valid (R30). -/
theorem validCfg_cfgDefault {p : Params} (ha : p.admissible = true) : validCfg p p.cfgDefault = true := by
  refine (validCfg_iff p p.cfgDefault).mpr fun i => ?_
  obtain ⟨-, -, -, -, legal⟩ := admissible_field ha i
  exact legal

/-- `PACK_CFG` answers the packed group of valid settings (R137). -/
theorem exec_packCfg_of_valid {f : Settings} {s : State} (hv : validCfg s.params f = true) :
    exec (.packCfg f) s = .next (s.send (0x00#8 :: (packCfg s.params f).bytes)) := by
  rw [exec, execPackCfg, if_pos hv]
  rfl

/-- Settles O24: `PACK_DEFAULT` is `PACK_CFG` of the default settings, which are valid. -/
theorem defaultsPackToFactorySequence : Obligations.DefaultsPackToFactorySequence := by
  intro s ha factory
  rw [Pseudo.expand, exec_packCfg_of_valid (validCfg_cfgDefault ha), factory]
  rfl

end Sys2Proof.Machine
end

section
/-! PROOFS of the bit-field family: EXTRACT, the laws of `Extract` and `Place`, and the bits of the packed group. -/

namespace Sys2Proof.Machine

open Sys2Proof.Spec

/-! ### EXTRACT -/

/-- R98 for every opcode: no other number of operand bytes makes a command packet. -/
theorem refusesOtherLengths_code (c : Opcode) : refusesOtherLengths c.code c.operandCount := by
  intro s operands rest other hp hi
  refine illegalPacketsExactly.2 s (c.code :: operands) rest ?_ hp hi
  intro command
  obtain ⟨d, _, packet, count⟩ := isCommandPacket_iff.mp command
  obtain ⟨code, rfl⟩ := List.cons_eq_cons.mp packet
  cases Opcode.code_injective c d code
  exact other count

/-- `Extract` as a byte in plain arithmetic (R110). -/
theorem extractField_eq_ofNat (b : Byte) {s n : Nat} (hs : s ≤ 7) (hn : n ≤ 8 - s) :
    extractField b s n hs hn = BitVec.ofNat 8 (b.toNat / 2 ^ s % 2 ^ n) := by
  rw [← extractField_toNat b s n hs hn, BitVec.ofNat_toNat, BitVec.setWidth_eq]

/-- `EXTRACT` within its ranges answers the field (R112). -/
theorem exec_extract_of_legal {b sb n : Byte} (hs : sb.toNat ≤ 7) (hn : n.toNat ≤ 8 - sb.toNat) (s : State) :
    exec (.extract b sb n) s = .next (s.respondOk [extractField b sb.toNat n.toNat hs hn]) := by
  rw [exec, execExtract, dif_pos ⟨hs, hn⟩]

/-- `EXTRACT` outside its ranges is refused (R112). -/
theorem exec_extract_of_illegal {b sb n : Byte} (h : ¬ (sb.toNat ≤ 7 ∧ n.toNat ≤ 8 - sb.toNat)) (s : State) :
    exec (.extract b sb n) s = .next (s.raise .preconditionViolated) := by
  rw [exec, execExtract, dif_neg h]

/-- Settles O13, within the ranges and outside them. -/
theorem extractAnswersField : Obligations.ExtractAnswersField := by
  refine ⟨refusesOtherLengths_code .extract, fun b sb n s => ⟨fun hs hn => ?_, fun outside => ?_⟩⟩
  · rw [exec_extract_of_legal hs hn, extractField_eq_ofNat]
    rfl
  · rw [exec_extract_of_illegal (by omega)]
    rfl

/-! ### The laws of `Extract` and `Place` -/

/-- `Extract` of no bits is 0 (R113). -/
theorem extractField_zero_width (b : Byte) (s : Nat) (hs : s ≤ 7) (hn : 0 ≤ 8 - s) :
    extractField b s 0 hs hn = 0x00#8 := by
  rw [extractField_eq_ofNat, pow_zero, Nat.mod_one]

/-- A narrow field is the widest one of the same start modulo `2^n` (R113). -/
theorem extractField_toNat_eq_mod (b : Byte) (s n : Nat) (hs : s ≤ 7) (hn : n ≤ 8 - s) (h8 : 8 - s ≤ 8 - s) :
    (extractField b s n hs hn).toNat = (extractField b s (8 - s) hs h8).toNat % 2 ^ n := by
  rw [extractField_toNat, extractField_toNat, Nat.mod_mod_of_dvd _ (pow_dvd_pow 2 hn)]

/-- `Extract` reads the bits of its range only (R113). -/
theorem extractField_congr {b c : Byte} {s n : Nat} (hs : s ≤ 7) (hn : n ≤ 8 - s)
    (same : ∀ i, s ≤ i → i < s + n → b.getLsbD i = c.getLsbD i) :
    extractField b s n hs hn = extractField c s n hs hn := by
  apply BitVec.eq_of_getLsbD_eq
  intro i _
  rw [extractField_getLsbD, extractField_getLsbD]
  by_cases hi : i < n
  · rw [same (s + i) (by omega) (by omega)]
  · simp [hi]

/-- A placed value that fits its range is read back (R113). -/
theorem extractField_placeField {v : Byte} {s n : Nat} (hs : s ≤ 7) (hn : n ≤ 8 - s) (fits : v.toNat < 2 ^ n) :
    extractField (placeField v s) s n hs hn = v := by
  apply BitVec.eq_of_getLsbD_eq
  intro i _
  rw [extractField_getLsbD, placeField_getLsbD]
  by_cases hi : i < n
  · have inByte : s + i < 8 := by omega
    simp [hi, inByte]
  · have beyond : v.getLsbD i = false :=
      Nat.testBit_lt_two_pow (fits.trans_le (Nat.pow_le_pow_right (by omega) (not_lt.mp hi)))
    simp [hi, beyond]

/-- A placed value is read back past any rest that is 0 in its range: there the rest does not matter (R113). -/
theorem extractField_placeField_or {v r : Byte} {s n : Nat} (hs : s ≤ 7) (hn : n ≤ 8 - s) (fits : v.toNat < 2 ^ n)
    (rest : ∀ i, s ≤ i → i < s + n → r.getLsbD i = false) :
    extractField (placeField v s ||| r) s n hs hn = v := by
  refine (extractField_congr hs hn fun i low high => ?_).trans (extractField_placeField hs hn fits)
  rw [BitVec.getLsbD_or, rest i low high, Bool.or_false]

/-- Settles O14, law by law. -/
theorem extractAndPlaceLaws : Obligations.ExtractAndPlaceLaws :=
  ⟨extractField_whole, extractField_bit, extractField_zero_width,
    fun _ _ _ _ hs hn fits rest => extractField_placeField_or hs hn fits rest,
    extractField_toNat_eq_mod, fun _ _ _ _ hs hn same => extractField_congr hs hn same⟩

/-! ### The bits of the packed group -/

/-- Settles O21: a packed byte is the OR of its placed fields, and a placed field is the value shifted to its start. -/
theorem packedBitsAreFieldBits : Obligations.PackedBitsAreFieldBits := by
  intro p f j b hb
  rw [packCfg_get, packByte_getLsbD]
  simp only [List.any_eq_true, Field.mem_all, true_and, Bool.and_eq_true, decide_eq_true_eq, placeField_getLsbD_iff, hb]

end Sys2Proof.Machine
end

section
/-! PROOFS of the threshold family: the three commands of the threshold transcoder, where the nibbles of a magnitude
go and how they come back, and the writes that carry what the encoders answer. -/

namespace Sys2Proof.Machine

open Sys2Proof.Spec

/-! ### The operands -/

/-- A target index is legal up to 9 (R124). -/
theorem keyTargetLegal_iff {k : Byte} : keyTargetLegal k = true ↔ k.toNat ≤ 9 := decide_eq_true_iff

/-- The target of a per-key index byte (R126). -/
theorem thrTarget_of_key_range {ib : Byte} (low : 0xC0 ≤ ib.toNat) (high : ib.toNat ≤ 0xC9) :
    thrTarget ib = BitVec.ofNat 8 (ib.toNat - 0xC0) := by
  have notSleep : ib ≠ Config.thrIndexSleep := by
    rintro rfl
    exact absurd high (by decide)
  have atLeast : Config.thrIndexBase ≤ ib := low
  rw [thrTarget, if_neg notSleep]
  apply BitVec.eq_of_toNat_eq
  rw [BitVec.toNat_sub_of_le atLeast, BitVec.toNat_ofNat, Nat.mod_eq_of_lt (by omega)]
  rfl

/-- The sleep index byte is its own target (R126). -/
theorem thrTarget_sleep : thrTarget Config.thrIndexSleep = Config.thrIndexSleep := if_pos rfl

/-- The target of an encoded index byte is the target index it was made from (R122, R126). -/
theorem thrTarget_thrIndex {k : Byte} (hk : keyTargetLegal k = true) : thrTarget (thrIndex k) = k := by
  obtain ⟨-, notSleep⟩ := indexByteLegal_thrIndex k hk
  rw [thrTarget, if_neg notSleep, thrIndex, add_sub_cancel_left]

/-! ### ENC_THR_KEY and ENC_THR_SLP -/

/-- `ENC_THR_KEY` answers the entry of a legal target index (R124). -/
theorem exec_encThrKey_of_legal {k : Byte} (hk : keyTargetLegal k = true) (v : Magnitude) (s : State) :
    exec (.encThrKey k v) s = .next (s.respondOk (thrKeyEntry k v)) := by
  rw [exec, execEncThrKey, if_pos hk]

/-- `ENC_THR_KEY` refuses any other target index (R124). -/
theorem exec_encThrKey_of_illegal {k : Byte} (hk : ¬ keyTargetLegal k = true) (v : Magnitude) (s : State) :
    exec (.encThrKey k v) s = .next (s.raise .preconditionViolated) := by
  rw [exec, execEncThrKey, if_neg hk]

/-- `ENC_THR_SLP` answers the sleep entry (R125). -/
theorem exec_encThrSlp (v : Magnitude) (s : State) :
    exec (.encThrSlp v) s = .next (s.respondOk (thrSleepEntry v)) := rfl

/-- Settles O15, for a legal target index and for any other. -/
theorem encodesKeyThreshold : Obligations.EncodesKeyThreshold := by
  refine ⟨refusesOtherLengths_code .encThrKey, fun k v s => ⟨fun legal => ?_, fun beyond => ?_⟩⟩
  · rw [exec_encThrKey_of_legal (keyTargetLegal_iff.mpr legal), thrKeyEntry_eq]
    rfl
  · rw [exec_encThrKey_of_illegal (mt keyTargetLegal_iff.mp (not_le.mpr beyond))]
    rfl

/-- Settles O16; the entry in plain arithmetic is `thrSleepEntry_eq`. -/
theorem encodesSleepThreshold : Obligations.EncodesSleepThreshold := by
  refine ⟨refusesOtherLengths_code .encThrSlp, fun v s => ?_⟩
  rw [exec_encThrSlp, thrSleepEntry_eq]
  rfl

/-- Settles O17: the nibbles are the halves of the two concatenations. -/
theorem nibblePlacement : Obligations.NibblePlacement := fun c =>
  ⟨BitVec.extractLsb'_append_eq_right, BitVec.extractLsb'_append_eq_left, BitVec.extractLsb'_append_eq_left,
    thrData_snd_low c, thrData_fst_toNat c, thrData_snd_toNat c⟩

/-! ### DEC_THR -/

/-- `DEC_THR` answers the target and the magnitude, low byte first, of an entry an encoder can produce (R126). -/
theorem exec_decThr_of_legal {ib : Byte} {b2l : BitVec 4} (legal : decThrLegal ib b2l = true) (b1 : Byte)
    (b2h : BitVec 4) (s : State) :
    exec (.decThr ib b1 b2h b2l) s = .next (s.respondOk [thrTarget ib, b1, BitVec.ofNat 8 b2h.toNat]) := by
  obtain ⟨low, high⟩ := thrValue_bytes b1 b2h b2l
  rw [exec, execDecThr, if_pos legal, low, high]

/-- `DEC_THR` refuses every other entry (R126). -/
theorem exec_decThr_of_illegal {ib : Byte} {b2l : BitVec 4} (illegal : ¬ decThrLegal ib b2l = true) (b1 : Byte)
    (b2h : BitVec 4) (s : State) :
    exec (.decThr ib b1 b2h b2l) s = .next (s.raise .preconditionViolated) := by
  rw [exec, execDecThr, if_neg illegal]

/-- Settles O18: a per-key entry, the sleep entry, and what no encoder produces. -/
theorem decodesThreshold : Obligations.DecodesThreshold := by
  refine ⟨refusesOtherLengths_code .decThr, fun ib b1 b2h b2l s =>
    ⟨fun low high zero => ?_, fun sleep zero => ?_, fun unproduced => ?_⟩⟩
  · have legal : decThrLegal ib b2l = true := by simp [decThrLegal_eq, low, high, zero]
    rw [exec_decThr_of_legal legal, thrTarget_of_key_range low high]
    rfl
  · have legal : decThrLegal ib b2l = true := by simp [decThrLegal_eq, sleep, zero]
    cases BitVec.eq_of_toNat_eq (y := Config.thrIndexSleep) sleep
    rw [exec_decThr_of_legal legal, thrTarget_sleep]
    rfl
  · have illegal : ¬ decThrLegal ib b2l = true := by
      rw [decThrLegal_eq, decide_eq_true_eq]
      tauto
    rw [exec_decThr_of_illegal illegal]
    rfl

/-! ### The round trip -/

/-- `DEC_THR` of a placed magnitude answers the target and that magnitude, low byte first (R121, R126). -/
theorem exec_decThr_thrData {ib : Byte} (legal : indexByteLegal ib = true) (c : BitVec 12) (s : State) :
    exec (.decThr ib (thrData c).1 (c.extractLsb' 8 4) 0#4) s =
      .next (s.respondOk [thrTarget ib, BitVec.ofNat 8 (c.toNat % 256), BitVec.ofNat 8 (c.toNat / 256)]) := by
  have entry : decThrLegal ib 0#4 = true := by simp [decThrLegal, legal]
  have low : (thrData c).1 = BitVec.ofNat 8 (c.toNat % 256) := by
    rw [← thrData_fst_toNat, BitVec.ofNat_toNat, BitVec.setWidth_eq]
  have high : (c.extractLsb' 8 4).toNat = c.toNat / 256 := by
    rw [BitVec.extractLsb'_toNat, Nat.shiftRight_eq_div_pow, Nat.mod_eq_of_lt (by omega)]
  rw [exec_decThr_of_legal entry, low, high]

/-- Settles O19: both entries carry the clamped magnitude as `thrData` places it, the low nibble of `B2` being 0, and
`DEC_THR` of that is `exec_decThr_thrData`. -/
theorem thresholdRoundTrip : Obligations.ThresholdRoundTrip := by
  refine ⟨thrValue_toNat, thrValue_thrData, fun k v s hk => ?_, fun v s => ?_⟩
  · have legal := keyTargetLegal_iff.mpr hk
    have decoded := exec_decThr_thrData (indexByteLegal_thrIndex k legal).1 (clampedMagnitude v false) s
    rw [thrTarget_thrIndex legal] at decoded
    exact ⟨_, (clampedMagnitude v false).extractLsb' 8 4, 0#4, (clampedMagnitude v false).toNat,
      exec_encThrKey_of_legal legal v s, decoded, clampedMagnitude_toNat v false⟩
  · have decoded := exec_decThr_thrData (ib := Config.thrIndexSleep) rfl (clampedMagnitude v true) s
    exact ⟨_, (clampedMagnitude v true).extractLsb' 8 4, 0#4, (clampedMagnitude v true).toNat,
      exec_encThrSlp v s, decoded, clampedMagnitude_toNat v true⟩

/-! ### The writes -/

/-- A write past its checks that is answered at once records its request as its event (R70, R166 to R168). -/
theorem exec_records_write {i : Instr} {s : State} {a : BusAddr} {reg n : Nat} {bytes : List Byte} {ans : TAns}
    {rest : List TAns} (hq : requestOf s.params s.busAddr i = some (.wr a reg n bytes))
    (hw : i.wellFormed s.params = true) (hr : s.hstate = .ready) (ha : s.answers = ans :: rest) :
    ∃ t, exec i s = .next t ∧ t.events = s.events ++ [.write a reg n bytes ans.ok] := by
  refine ⟨_, exec_transacts hq hw hr, ?_⟩
  rw [State.transact_answered _ ha]
  rfl

/-- Settles O37: in each pair the write's request carries the payload that the pure command answers, and the operands
that are legal for the one are legal for the other. -/
theorem writesSendWhatEncodersAnswer : Obligations.WritesSendWhatEncodersAnswer := by
  intro s a ans rest hr hd ha enc wr pair hw
  obtain rfl := State.busAddr_of_some hd
  rcases pair with ⟨f, rfl, rfl⟩ | ⟨k, v, rfl, rfl⟩ | ⟨v, rfl, rfl⟩
  · obtain ⟨t, sent, events⟩ := exec_records_write (i := .wrCfg f) rfl hw hr ha
    exact ⟨_, t, exec_packCfg_of_valid hw, sent, events⟩
  · obtain ⟨t, sent, events⟩ := exec_records_write (requestOf_wrThrKey _ _ k v) hw hr ha
    exact ⟨_, t, exec_encThrKey_of_legal hw v s, sent, events⟩
  · obtain ⟨t, sent, events⟩ := exec_records_write (requestOf_wrThrSlp _ _ v) hw hr ha
    exact ⟨_, t, exec_encThrSlp v s, sent, events⟩

end Sys2Proof.Machine
end

section
/-! PROOFS of the configuration packer family: what `PACK_CFG` answers. -/

namespace Sys2Proof.Machine

open Sys2Proof.Spec

/-- Settings are not valid exactly when some setting is not a member of its enumeration (R136). -/
theorem not_validCfg_iff {p : Params} {f : Settings} : ¬ validCfg p f = true ↔ someSettingIllegal p f :=
  (validCfg_iff p f).not.trans not_forall

/-- `PACK_CFG` refuses settings that are not valid (R137). -/
theorem exec_packCfg_of_invalid {f : Settings} {s : State} (hv : ¬ validCfg s.params f = true) :
    exec (.packCfg f) s = .next (s.raise .preconditionViolated) := by
  rw [exec, execPackCfg, if_neg hv]

/-- Settles O20, for valid settings and for any other. -/
theorem packCfgAnswersGroup : Obligations.PackCfgAnswersGroup := by
  refine ⟨refusesOtherLengths_code .packCfg, fun f s => ⟨fun legal => ?_, fun illegal => ?_⟩⟩
  · rw [exec_packCfg_of_valid ((validCfg_iff s.params f).mpr legal)]
    rfl
  · rw [exec_packCfg_of_invalid (not_validCfg_iff.mpr illegal)]
    rfl

end Sys2Proof.Machine
end

section
/-! PROOFS of the status decoder family: which bits of the snapshot each status command answers, and which index
operands it refuses. -/

namespace Sys2Proof.Machine

open Sys2Proof.Spec

/-! ### DEC_CORR and DEC_WRF -/

/-- `DEC_CORR` answers the correction flag of the snapshot (R151). -/
theorem exec_decCorr (st : Snapshot) (s : State) :
    exec (.decCorr st) s = .next (s.respondOk [boolByte (st.st0.getLsbD 7)]) := by
  rw [exec, execDecCorr, correctionFlag_eq]

/-- `DEC_WRF` answers the write flag of the snapshot (R152). -/
theorem exec_decWrf (st : Snapshot) (s : State) :
    exec (.decWrf st) s = .next (s.respondOk [boolByte (st.st0.getLsbD 6)]) := by
  rw [exec, execDecWrf, writeFlag_eq]

/-- Settles O26, one flag after the other. -/
theorem flagAccessorsReadSt0 : Obligations.FlagAccessorsReadSt0 :=
  ⟨refusesOtherLengths_code .decCorr, refusesOtherLengths_code .decWrf, fun st s =>
    ⟨exec_decCorr st s, exec_decWrf st s⟩⟩

/-! ### DEC_SLT -/

/-- `DEC_SLT` answers whether the slider its index names is touched (R153). -/
theorem exec_decSlt_of_slider {ix : Byte} {i : Fin 3} (named : ix.toNat = i.val + 1) (st : Snapshot) (s : State) :
    exec (.decSlt st ix) s = .next (s.respondOk [boolByte (st.st0.getLsbD (s.params.sltBits[i]).val)]) := by
  rw [exec, execDecSlt, sliderOf_eq_some named, ← sliderTouched_eq]

/-- `DEC_SLT` refuses an index that names no slider (R153). -/
theorem exec_decSlt_of_no_slider {ix : Byte} (beyond : ix.toNat < 1 ∨ 3 < ix.toNat) (st : Snapshot) (s : State) :
    exec (.decSlt st ix) s = .next (s.raise .preconditionViolated) := by
  rw [exec, execDecSlt, sliderOf_eq_none beyond]

/-- The bits of the three sliders after reset are those the spec decides (R153, D16; log 8). -/
theorem reset_sltBits : ∀ i : Fin 3, (State.reset.params.sltBits[i]).val = 3 - (i.val + 1) := by
  have decided : ∀ i : Fin 3, (Config.sltBitsDecided[i]).val = 3 - (i.val + 1) := by decide
  exact decided

/-- Settles O27: a named slider, any other index, and the bits after reset. -/
theorem sliderTouchedReadsSt0 : Obligations.SliderTouchedReadsSt0 :=
  ⟨refusesOtherLengths_code .decSlt, fun st _ s =>
    ⟨fun _ named => exec_decSlt_of_slider named st s, fun beyond => exec_decSlt_of_no_slider beyond st s⟩,
    reset_sltBits⟩

/-! ### DEC_KEY -/

/-- Each of keys 1 to 8 is pressed when its bit of `ST1` is set (R154). -/
theorem keyPressed_castSucc (p : Params) (st : Snapshot) (i : Fin 8) :
    keyPressed p st i.castSucc = boolByte (st.st1.getLsbD (p.keyBits[i]).val) :=
  (dif_pos i.isLt).trans (extractField_bit ..)

/-- Key 9 is pressed when bit 0 of `ST2` is set (R154). -/
theorem keyPressed_last (p : Params) (st : Snapshot) :
    keyPressed p st (Fin.last 8) = boolByte (st.st2.getLsbD 0) :=
  extractField_bit st.st2 0 (by decide) (by decide)

/-- `DEC_KEY` answers whether the key its index names is pressed (R154). -/
theorem exec_decKey_of_key {ix : Byte} {k : Fin 9} (named : ix.toNat = k.val + 1) (st : Snapshot) (s : State) :
    exec (.decKey st ix) s = .next (s.respondOk [keyPressed s.params st k]) := by
  rw [exec, execDecKey, keyOf_eq_some named]

/-- `DEC_KEY` refuses an index that names no key (R154). -/
theorem exec_decKey_of_no_key {ix : Byte} (beyond : ix.toNat < 1 ∨ 9 < ix.toNat) (st : Snapshot) (s : State) :
    exec (.decKey st ix) s = .next (s.raise .preconditionViolated) := by
  rw [exec, execDecKey, keyOf_eq_none beyond]

/-- The bits of keys 1 to 8 after reset are those the spec decides (R154, D15; log 8). -/
theorem reset_keyBits : ∀ i : Fin 8, (State.reset.params.keyBits[i]).val = (i.val + 1) - 1 := by
  have decided : ∀ i : Fin 8, (Config.keyBitsDecided[i]).val = (i.val + 1) - 1 := by decide
  exact decided

/-- Settles O28: keys 1 to 8, key 9, any other index, and the bits after reset. -/
theorem keyPressedReadsSt1AndSt2 : Obligations.KeyPressedReadsSt1AndSt2 := by
  refine ⟨refusesOtherLengths_code .decKey, fun st ix s =>
    ⟨fun i named => ?_, fun ninth => ?_, fun beyond => exec_decKey_of_no_key beyond st s⟩, reset_keyBits⟩
  · rw [exec_decKey_of_key (k := i.castSucc) named, keyPressed_castSucc]
    rfl
  · rw [exec_decKey_of_key (k := Fin.last 8) ninth, keyPressed_last]
    rfl

/-! ### DEC_POS -/

/-- The position of each slider is the whole of its byte, `ST3`, `ST4` or `ST5` (R155). -/
theorem sliderPosition_eq (st : Snapshot) (i : Fin 3) : sliderPosition st i = #v[st.st3, st.st4, st.st5][i] := by
  match i with
  | 0 => exact extractField_whole st.st3 (by decide) (by decide)
  | 1 => exact extractField_whole st.st4 (by decide) (by decide)
  | 2 => exact extractField_whole st.st5 (by decide) (by decide)

/-- `DEC_POS` answers the position byte of the slider its index names (R155). -/
theorem exec_decPos_of_slider {ix : Byte} {i : Fin 3} (named : ix.toNat = i.val + 1) (st : Snapshot) (s : State) :
    exec (.decPos st ix) s = .next (s.respondOk [#v[st.st3, st.st4, st.st5][i]]) := by
  rw [exec, execDecPos, sliderOf_eq_some named, ← sliderPosition_eq]

/-- `DEC_POS` refuses an index that names no slider (R155). -/
theorem exec_decPos_of_no_slider {ix : Byte} (beyond : ix.toNat < 1 ∨ 3 < ix.toNat) (st : Snapshot) (s : State) :
    exec (.decPos st ix) s = .next (s.raise .preconditionViolated) := by
  rw [exec, execDecPos, sliderOf_eq_none beyond]

/-- Settles O29, slider by slider, and for any other index. -/
theorem sliderPositionIsWholeByte : Obligations.SliderPositionIsWholeByte :=
  ⟨refusesOtherLengths_code .decPos, fun st _ s =>
    ⟨fun first => exec_decPos_of_slider (i := 0) first st s,
      fun second => exec_decPos_of_slider (i := 1) second st s,
      fun third => exec_decPos_of_slider (i := 2) third st s,
      fun beyond => exec_decPos_of_no_slider beyond st s⟩⟩

end Sys2Proof.Machine
end

section
/-! PROOFS of the transactions family: the checks of `INIT`, the checks and the one request of each transaction command,
polls in a row, and the pure commands. -/

namespace Sys2Proof.Machine

open Sys2Proof.Spec

/-! ### Pure commands -/

/-- Settles O38: the one packet is that of `sendsOnly_of_isPure`. -/
theorem pureCommandsIgnoreHandle : Obligations.PureCommandsIgnoreHandle := by
  intro i p hi
  obtain ⟨packet, -, sends⟩ := sendsOnly_of_isPure p hi
  exact ⟨packet, sends⟩

/-! ### INIT -/

/-- `INIT` refuses a reserved bit that is set (R99, R165). -/
theorem exec_init_of_reserved {rsv1 : BitVec 1} {rsv2 : BitVec 6} (reserved : rsv1 ≠ 0#1 ∨ rsv2 ≠ 0#6) (a : BusAddr)
    (tw tr : Bool) (s : State) :
    exec (.init rsv1 a rsv2 tw tr) s = .next (s.raise .preconditionViolated) := by
  have illegal : initLegal rsv1 rsv2 = false := by
    rw [initLegal_eq, decide_eq_false_iff_not]
    tauto
  rw [exec, execInit, illegal]
  rfl

/-- With its reserved bits 0, `INIT` goes by the state and the two capabilities (R165). -/
theorem exec_init_of_unreserved (a : BusAddr) (tw tr : Bool) (s : State) :
    exec (.init 0#1 a 0#6 tw tr) s = .next (if s.hstate ≠ .uninit then s.raise .preconditionViolated
      else if tr = false ∨ tw = false then (s.setHState .failed).raise .invalidTransport
      else ((s.setDevAddr (some a)).setHState .ready).respondOk []) := rfl

/-- `INIT` refuses a second handle (R165). -/
theorem exec_init_of_created {s : State} (created : s.hstate ≠ .uninit) (rsv1 : BitVec 1) (a : BusAddr)
    (rsv2 : BitVec 6) (tw tr : Bool) :
    exec (.init rsv1 a rsv2 tw tr) s = .next (s.raise .preconditionViolated) := by
  by_cases unreserved : rsv1 = 0#1 ∧ rsv2 = 0#6
  · obtain ⟨rfl, rfl⟩ := unreserved
    rw [exec_init_of_unreserved, if_pos created]
  · exact exec_init_of_reserved (not_and_or.mp unreserved) a tw tr s

/-- Settles O31, check by check. -/
theorem initCreatesHandleOnce : Obligations.InitCreatesHandleOnce := by
  refine ⟨refusesOtherLengths_code .init, fun rsv1 a rsv2 tw tr s =>
    ⟨fun reserved => exec_init_of_reserved reserved a tw tr s,
      fun created => exec_init_of_created created rsv1 a rsv2 tw tr,
      fun zero1 zero2 uninit null => ?_, fun zero1 zero2 uninit read write => ?_⟩⟩
  · subst zero1 zero2
    rw [exec_init_of_unreserved, if_neg (not_not.mpr uninit), if_pos null]
    rfl
  · subst zero1 zero2 read write
    rw [exec_init_of_unreserved, if_neg (not_not.mpr uninit), if_neg (by decide)]
    rfl

/-! ### The transaction commands -/

/-- A transaction command with an illegal operand is answered `PreconditionViolated`, whatever the handle (R189, R195). -/
theorem exec_transaction_of_illegal {i : Instr} {s : State} (hi : i.isTransaction = true)
    (illegal : ¬ i.wellFormed s.params = true) : exec i s = .next (s.send [0x03#8]) := by
  obtain ⟨req, hq⟩ := exists_requestOf s.params s.busAddr hi
  rw [exec_of_requestOf hq, if_neg illegal]

/-- A transaction command with legal operands and no usable handle is answered `NoHandle` (R170, R195). -/
theorem exec_transaction_of_not_ready {i : Instr} {s : State} (hi : i.isTransaction = true)
    (hw : i.wellFormed s.params = true) (hr : s.hstate ≠ .ready) : exec i s = .next (s.send [0x05#8]) := by
  obtain ⟨req, hq⟩ := exists_requestOf s.params s.busAddr hi
  rw [exec_of_requestOf hq, if_pos hw, State.withHandle_not_ready hr]

/-- A transaction command past its checks whose request is answered at once leaves the event and the response of that
request, and takes the answer (R55, R166 to R169). -/
theorem exec_transaction_answered {i : Instr} {s : State} {a : BusAddr} {req : TReq} {ans : TAns} {rest : List TAns}
    (hq : requestOf s.params a i = some req) (hw : i.wellFormed s.params = true) (hr : s.hstate = .ready)
    (hd : s.devAddr = some a) (ha : s.answers = ans :: rest) :
    exec i s = .next { s with
      pending := none, answers := rest, events := s.events ++ [State.eventOf ans req],
      responses := s.responses ++ [State.packetOf ans req] } := by
  rw [exec_transacts (State.busAddr_of_some hd ▸ hq) hw hr, State.transact_answered req ha]

/-- Settles O32: the settings, the handle, the write. -/
theorem writeSettingsTransaction : Obligations.WriteSettingsTransaction := by
  refine ⟨refusesOtherLengths_code .wrCfg, fun f s =>
    ⟨fun illegal => ?_, fun legal hr => ?_, fun a ans rest legal hr hd ha => ?_⟩⟩
  · exact exec_transaction_of_illegal rfl (not_validCfg_iff.mpr illegal)
  · exact exec_transaction_of_not_ready rfl ((validCfg_iff s.params f).mpr legal) hr
  · exact (exec_transaction_answered (i := .wrCfg f) rfl ((validCfg_iff s.params f).mpr legal) hr hd ha :)

/-- Settles O33: the target index, the handle, the write. -/
theorem writeKeyThresholdTransaction : Obligations.WriteKeyThresholdTransaction := by
  refine ⟨refusesOtherLengths_code .wrThrKey, fun k v s =>
    ⟨fun beyond => ?_, fun legal hr => ?_, fun a ans rest legal hr hd ha => ?_⟩⟩
  · exact exec_transaction_of_illegal rfl (mt keyTargetLegal_iff.mp (not_le.mpr beyond))
  · exact exec_transaction_of_not_ready rfl (keyTargetLegal_iff.mpr legal) hr
  · exact (exec_transaction_answered (i := .wrThrKey k v) rfl (keyTargetLegal_iff.mpr legal) hr hd ha :)

/-- Settles O34: the handle, the write. -/
theorem writeSleepThresholdTransaction : Obligations.WriteSleepThresholdTransaction :=
  ⟨refusesOtherLengths_code .wrThrSlp, fun v _ =>
    ⟨fun hr => exec_transaction_of_not_ready rfl rfl hr,
      fun _ _ _ hr hd ha => (exec_transaction_answered (i := .wrThrSlp v) rfl rfl hr hd ha :)⟩⟩

/-- Settles O35: the handle, the read. -/
theorem readStatusTransaction : Obligations.ReadStatusTransaction :=
  ⟨refusesOtherLengths_code .rdStatus, fun _ =>
    ⟨fun hr => exec_transaction_of_not_ready rfl rfl hr,
      fun _ _ _ hr hd ha => (exec_transaction_answered (i := .rdStatus) rfl rfl hr hd ha :)⟩⟩

/-! ### Polls in a row -/

/-- A run goes on from the state its first step answers. -/
theorem run_succ_of_step {s t : State} (k : Nat) (h : step s = .next t) : core.run (k + 1) s = core.run k t := by
  have first : core.step s = .next t := h
  simp only [Host.Core.run, first]

/-- The state after one successful poll: a read of the six bytes recorded, the same bytes sent. -/
def State.polled (a : BusAddr) (st : Snapshot) (inputs : List HostInput) (rest : List TAns) (s : State) : State :=
  { s with
    hostInputs := inputs, answers := rest,
    events := s.events ++ [.read a s.params.regAddrSentinel 6 true st.bytes],
    responses := s.responses ++ [0x00#8 :: st.bytes] }

/-- One status read presented, with a usable handle and a successful answer ready, is one poll (R169). -/
theorem step_of_poll {s : State} {a : BusAddr} {st : Snapshot} {inputs : List HostInput} {rest : List TAns}
    (hp : s.pending = none) (hr : s.hstate = .ready) (hd : s.devAddr = some a)
    (hi : s.hostInputs = .command [0x53#8] :: inputs) (ha : s.answers = ⟨true, st⟩ :: rest) :
    step s = .next (s.polled a st inputs rest) := by
  rw [step_of_command hp hi (decodeInvertsEncode .rdStatus),
    exec_transaction_answered (s := s.setHostInputs inputs) rfl rfl hr hd ha, ← hp]
  rfl

/-- Settles O51, by induction on the snapshots: the first step is one poll, and it leaves a state in which the
remaining polls are presented and answered. -/
theorem pollsRelayEverySnapshot : Obligations.PollsRelayEverySnapshot := by
  intro snaps
  induction snaps with
  | nil =>
    intro s a inputs rest _ _ _ hi ha
    obtain rfl : s.hostInputs = inputs := hi
    obtain rfl : s.answers = rest := ha
    simp [Host.Core.run]
  | cons st snaps ih =>
    intro s a inputs rest hp hr hd hi ha
    have later := ih (s.polled a st (snaps.map (fun _ => .command [0x53#8]) ++ inputs)
      (snaps.map (fun st => ⟨true, st⟩) ++ rest)) a inputs rest hp hr hd rfl rfl
    refine (run_succ_of_step snaps.length (step_of_poll hp hr hd hi ha)).trans (later.trans ?_)
    simp [State.polled]

end Sys2Proof.Machine
end

section
/-! PROOFS of the exceptions family: when a command answers `PreconditionViolated`, what an error leaves unchanged, and
the blocks of one system. -/

namespace Sys2Proof.Machine

open Sys2Proof.Spec

/-! ### The packet of an answered request -/

/-- A successful answer is passed on as an `OK` response (R166 to R169). -/
theorem State.packetOf_of_ok {ans : TAns} (hok : ans.ok = true) (req : TReq) :
    ∃ payload, State.packetOf ans req = 0x00#8 :: payload := by
  cases req with
  | wr => exact ⟨[], if_pos hok⟩
  | rd => exact ⟨ans.data.bytes, if_pos hok⟩

/-- A failed answer is passed on as `TransportFailure` (R187). -/
theorem State.packetOf_of_failed {ans : TAns} (failed : ans.ok = false) (req : TReq) :
    State.packetOf ans req = [0x02#8] := by
  cases req <;> exact if_neg (by simp [failed])

/-- An answered request that is passed on as an error failed, and the error is `TransportFailure` (R187). -/
theorem State.failed_of_packetOf_eq_error {ans : TAns} {req : TReq} {e : Byte}
    (packet : State.packetOf ans req = [e]) (error : e ≠ 0x00#8) : ans.ok = false ∧ e = 0x02#8 := by
  cases hok : ans.ok with
  | true =>
    obtain ⟨payload, success⟩ := State.packetOf_of_ok hok req
    obtain ⟨rfl, -⟩ := List.cons_eq_cons.mp (packet.symm.trans success)
    exact absurd rfl error
  | false =>
    obtain ⟨rfl, -⟩ := List.cons_eq_cons.mp (packet.symm.trans (State.packetOf_of_failed hok req))
    exact ⟨rfl, rfl⟩

/-! ### `PreconditionViolated` -/

/-- A command whose condition in the list of R189 holds is answered `PreconditionViolated`, with no other effect. -/
theorem exec_of_preconditionBroken {i : Instr} {s : State} (broken : preconditionBroken s i) :
    exec i s = .next (s.raise .preconditionViolated) := by
  cases i with
  | init rsv1 a rsv2 tw tr =>
    obtain reserved | reserved | created := broken
    · exact exec_init_of_reserved (.inl reserved) a tw tr s
    · exact exec_init_of_reserved (.inr reserved) a tw tr s
    · exact exec_init_of_created created rsv1 a rsv2 tw tr
  | extract b sb n =>
    have outside : 7 < sb.toNat ∨ 8 < sb.toNat + n.toNat := broken
    exact exec_extract_of_illegal (by omega) s
  | encThrKey k v => exact exec_encThrKey_of_illegal (mt keyTargetLegal_iff.mp (not_le.mpr broken)) v s
  | decThr ib b1 b2h b2l =>
    have illegal : ¬ decThrLegal ib b2l = true := by
      rw [decThrLegal_eq, decide_eq_true_iff]
      exact not_and_or.mpr broken
    exact exec_decThr_of_illegal illegal b1 b2h s
  | packCfg f => exact exec_packCfg_of_invalid (not_validCfg_iff.mpr broken)
  | decSlt st ix => exact exec_decSlt_of_no_slider broken st s
  | decKey st ix => exact exec_decKey_of_no_key broken st s
  | decPos st ix => exact exec_decPos_of_no_slider broken st s
  | wrCfg f => exact exec_transaction_of_illegal rfl (not_validCfg_iff.mpr broken)
  | wrThrKey k v => exact exec_transaction_of_illegal rfl (mt keyTargetLegal_iff.mp (not_le.mpr broken))
  | encThrSlp | decCorr | decWrf | wrThrSlp | rdStatus => exact broken.elim

/-- An index from 1 to `n` is one more than an element of `Fin n`: the spec counts sliders and keys from 1. -/
theorem exists_fin_of_index {n : Nat} {ix : Byte} (named : ¬ (ix.toNat < 1 ∨ n < ix.toNat)) :
    ∃ i : Fin n, ix.toNat = i.val + 1 :=
  ⟨⟨ix.toNat - 1, by omega⟩, by simp only; omega⟩

/-- A pure command whose condition in the list of R189 does not hold is answered `OK` (R171). -/
theorem exec_pure_of_not_broken {i : Instr} {s : State} (hi : i.isPure = true) (kept : ¬ preconditionBroken s i) :
    ∃ payload, exec i s = .next (s.respondOk payload) := by
  cases i with
  | init | wrCfg | wrThrKey | wrThrSlp | rdStatus => cases hi
  | extract b sb n =>
    have inside : ¬ (7 < sb.toNat ∨ 8 < sb.toNat + n.toNat) := kept
    exact ⟨_, exec_extract_of_legal (by omega) (by omega) s⟩
  | encThrKey k v => exact ⟨_, exec_encThrKey_of_legal (keyTargetLegal_iff.mpr (not_lt.mp kept)) v s⟩
  | encThrSlp v => exact ⟨_, exec_encThrSlp v s⟩
  | decThr ib b1 b2h b2l =>
    have legal : decThrLegal ib b2l = true := by
      rw [decThrLegal_eq, decide_eq_true_iff]
      exact not_not.mp (mt not_and_or.mp kept)
    exact ⟨_, exec_decThr_of_legal legal b1 b2h s⟩
  | packCfg f => exact ⟨_, exec_packCfg_of_valid (not_not.mp (mt not_validCfg_iff.mp kept))⟩
  | decCorr st => exact ⟨_, exec_decCorr st s⟩
  | decWrf st => exact ⟨_, exec_decWrf st s⟩
  | decSlt st ix =>
    obtain ⟨i, named⟩ := exists_fin_of_index kept
    exact ⟨_, exec_decSlt_of_slider named st s⟩
  | decKey st ix =>
    obtain ⟨k, named⟩ := exists_fin_of_index kept
    exact ⟨_, exec_decKey_of_key named st s⟩
  | decPos st ix =>
    obtain ⟨i, named⟩ := exists_fin_of_index kept
    exact ⟨_, exec_decPos_of_slider named st s⟩

/-- The operands of a transaction command are legal when its condition in the list of R189 does not hold. -/
theorem wellFormed_of_not_broken {i : Instr} {s : State} (hi : i.isTransaction = true)
    (kept : ¬ preconditionBroken s i) : i.wellFormed s.params = true := by
  cases i with
  | wrCfg f => exact not_not.mp (mt not_validCfg_iff.mp kept)
  | wrThrKey k v => exact keyTargetLegal_iff.mpr (not_lt.mp kept)
  | wrThrSlp | rdStatus => rfl
  | _ => cases hi

/-- Making a request is never answered `PreconditionViolated`: it waits, or is answered `OK` or `TransportFailure`. -/
theorem transact_not_violated (req : TReq) (s : State) :
    (s.transact req).responses ≠ s.responses ++ [[0x03#8]] := by
  cases ha : s.answers with
  | nil => simp [State.transact_waiting req ha]
  | cons ans rest =>
    have packet : State.packetOf ans req ≠ [0x03#8] := fun violated =>
      absurd (State.failed_of_packetOf_eq_error violated (by decide)).2 (by decide)
    simp [State.transact_answered req ha, packet]

/-- An `INIT` whose condition in the list of R189 does not hold goes by the two capabilities (R165). -/
theorem exec_init_of_not_broken {rsv1 : BitVec 1} {a : BusAddr} {rsv2 : BitVec 6} {tw tr : Bool} {s : State}
    (kept : ¬ preconditionBroken s (.init rsv1 a rsv2 tw tr)) :
    exec (.init rsv1 a rsv2 tw tr) s = .next (if tr = false ∨ tw = false then (s.setHState .failed).send [0x01#8]
      else ((s.setDevAddr (some a)).setHState .ready).send [0x00#8]) := by
  obtain ⟨zero1, zero2, uninit⟩ := by simpa only [preconditionBroken, not_or, not_not] using kept
  subst zero1 zero2
  rw [exec_init_of_unreserved, if_neg (not_not.mpr uninit)]
  rfl

/-- A command whose condition in the list of R189 does not hold is not answered `PreconditionViolated`: a pure command
answers `OK`, a transaction `NoHandle` or what its request brings, an `INIT` goes by its capabilities. -/
theorem not_violated_of_not_broken {i : Instr} {s t : State} (kept : ¬ preconditionBroken s i)
    (h : exec i s = .next t) : t.responses ≠ s.responses ++ [[0x03#8]] := by
  rcases isPure_or_isTransaction_or_init i with hi | hi | ⟨rsv1, a, rsv2, tw, tr, rfl⟩
  · obtain ⟨payload, answered⟩ := exec_pure_of_not_broken hi kept
    cases h.symm.trans answered
    simp
  · have hw := wellFormed_of_not_broken hi kept
    by_cases hr : s.hstate = .ready
    · obtain ⟨req, hq⟩ := exists_requestOf s.params s.busAddr hi
      cases h.symm.trans (exec_transacts hq hw hr)
      exact transact_not_violated req s
    · cases h.symm.trans (exec_transaction_of_not_ready hi hw hr)
      simp
  · cases h.symm.trans (exec_init_of_not_broken kept)
    split <;> simp

/-- Settles O39: the condition of R189 decides, in both directions. -/
theorem preconditionViolatedExactly : Obligations.PreconditionViolatedExactly :=
  fun _ _ => ⟨exec_of_preconditionBroken, fun kept _ => not_violated_of_not_broken kept⟩

/-! ### Errors -/

/-- Settles O41, along the five things a command can do: a refusal changes only the response and is neither of the two
special errors, a failing `INIT` is `InvalidTransport`, and a request that brings an error was answered. -/
theorem errorsArePrecise : Obligations.ErrorsArePrecise := by
  intro i s t e h sent error
  cases exec_effect h with
  | answers payload =>
    obtain ⟨rfl, -⟩ : 0x00#8 = e ∧ payload = [] := by simpa using sent
    exact absurd rfl error
  | initSucceeds =>
    obtain rfl : 0x00#8 = e := by simpa using sent
    exact absurd rfl error
  | refuses c refusal =>
    obtain rfl : c = e := by simpa using sent
    have other : c ≠ 0x01#8 ∧ c ≠ 0x02#8 := by rcases refusal with rfl | rfl <;> decide
    exact ⟨fun invalid => absurd invalid other.1, fun failure => absurd failure other.2, fun _ _ => rfl⟩
  | initFails =>
    obtain rfl : 0x01#8 = e := by simpa using sent
    exact ⟨fun _ => rfl, fun failure => absurd failure (by decide), fun other => absurd rfl other⟩
  | transacts req =>
    cases ha : s.answers with
    | nil => simp [State.transact_waiting req ha] at sent
    | cons ans rest =>
      rw [State.transact_answered req ha] at sent ⊢
      obtain ⟨failed, rfl⟩ := State.failed_of_packetOf_eq_error (by simpa using sent) error
      exact ⟨fun invalid => absurd invalid (by decide), fun _ => ⟨_, ans, rest, failed, rfl, rfl⟩,
        fun _ other => absurd rfl other⟩

/-! ### Several blocks -/

/-- Letting block `k` take its step puts its next state in its place (R200). -/
theorem stepBlock_of_step {k : Nat} {sys : List State} {s t : State} (hk : sys[k]? = some s) (h : step s = .next t) :
    stepBlock k sys = .next (sys.set k t) := by
  simp only [stepBlock, hk, h]

/-- Settles O50: replacing one element of a list leaves its length and the other elements. -/
theorem blocksShareNothing : Obligations.BlocksShareNothing := by
  intro k sys s t hk h
  obtain ⟨inside, -⟩ := List.getElem?_eq_some_iff.mp hk
  exact ⟨sys.set k t, stepBlock_of_step hk h, List.getElem?_set_self inside, List.length_set,
    fun _ other => List.getElem?_set_ne other.symm⟩

end Sys2Proof.Machine
end

section
/-! PROOFS of the reset family: a reset taken between commands. -/

namespace Sys2Proof.Machine

/-- The effect of reset on a state whose next input was just taken, field by field (R216): the handle is cleared and
every other field keeps its value. -/
theorem State.takeReset_setHostInputs (s : State) (rest : List HostInput) :
    (s.setHostInputs rest).takeReset = { s with hstate := .uninit, devAddr := none, hostInputs := rest } := rfl

/-- Settles O2: the step takes the reset, and the reset's updates write the handle only. -/
theorem resetClearsOnlyHandle : Obligations.ResetClearsOnlyHandle := by
  intro s rest hp hi
  rw [step_of_reset hp hi, State.takeReset_setHostInputs]

end Sys2Proof.Machine
end
